-- ==== Sys2Proof/Word.lean ====
section
/-!
DEFINITION. The word types of the display core (spec/00_scope.md R11): command words, bytes and RGB565 colors.
-/

namespace Sys2Proof

/-- A 32-bit command word, and the width of STATUS and CURSOR_X (R60, R23, R24). -/
abbrev Word := BitVec 32

/-- A byte (R11). -/
abbrev Byte := BitVec 8

/-- A 16-bit RGB565 color. The block never splits it into fields (R21, R52). -/
abbrev Color := BitVec 16

end Sys2Proof
end

