-- ==== Sys2Proof/Config.lean ====
section
/-!
DEFINITION. The construction-time parameters of the block (spec/00_scope.md R5 to R10), as plain data.
A configuration is no state of the block (R26): the model carries one in `State.cfg`, and no step changes it.
-/

namespace Sys2Proof

/-- Framebuffer select, the values of the `B` and `D` bits (R62). -/
inductive Fb where
  | fb0
  | fb1
deriving DecidableEq, Repr, Inhabited

/-- Bytes `P[4..7]` of a redraw packet, in wire order (R147). -/
structure HdrTail where
  t0 : Byte
  t1 : Byte
  t2 : Byte
  t3 : Byte
deriving DecidableEq, Repr, Inhabited

/-- One value of the parameter HDR_TAIL: its four arguments and its result (R8, R147). -/
structure TailEntry where
  index : Nat
  sent  : Nat
  len   : Nat
  chunk : Nat
  tail  : HdrTail
deriving DecidableEq, Repr, Inhabited

/-- The five column bytes of one glyph, leftmost column first (R9, R51). -/
structure Glyph where
  g0 : Byte
  g1 : Byte
  g2 : Byte
  g3 : Byte
  g4 : Byte
deriving DecidableEq, Repr, Inhabited

/-- The parameter GLYPH_ROM (R9): one optional glyph for each of the 64 codes that SUPPORTED may hold, in the order
`0`-`9`, `A`-`Z`, `a`-`z`, `:`, space. SUPPORTED is the set of codes whose place holds a glyph, so every
value of this type is a legal ROM and every legal ROM is a value of it. -/
structure GlyphRom where
  glyphs : Vector (Option Glyph) 64
deriving DecidableEq, Repr, Inhabited

/-- The parameter SINGLE_CODE: START or END for the packet of a one-packet frame (R8, R145). -/
inductive SingleCode where
  | start
  | stop
deriving DecidableEq, Repr, Inhabited

/-- The configuration (R26). `hdrTail` lists the arguments at which HDR_TAIL differs from its default (log entry 4). -/
structure Config where
  w0 : Nat
  h0 : Nat
  w1 : Nat
  h1 : Nat
  /-- `C`, the data bytes of a packet (R6). -/
  chunk         : Nat
  singleCode    : SingleCode
  timeCode      : Byte
  heartbeatCode : Byte
  hdrTail       : List TailEntry
  glyphRom      : GlyphRom
deriving DecidableEq, Repr

/-- `W[b]` (R5). -/
def Config.width (c : Config) : Fb → Nat
  | .fb0 => c.w0
  | .fb1 => c.w1

/-- `H[b]` (R5). -/
def Config.height (c : Config) : Fb → Nat
  | .fb0 => c.h0
  | .fb1 => c.h1

/-- The chip's own GLYPH_ROM, which the spec does not give (R9, N1, U1): a constant without a body, so no proof can
rest on a font. -/
opaque Config.chipGlyphRom : GlyphRom

/-- The configuration with the default of every parameter that has one (R5, R6, R8, R147) and the chip's unknown
font. -/
def Config.default : Config where
  w0 := 170
  h0 := 320
  w1 := 320
  h1 := 170
  chunk := 4096
  singleCode := .stop
  timeCode := 0xF3
  heartbeatCode := 0xF2
  hdrTail := []
  glyphRom := Config.chipGlyphRom

end Sys2Proof
end

