-- ==== Sys2Proof/Syntax.lean ====
section
/-!
DEFINITION. The instructions: one constructor for each row of spec/opcode_table.json. Eleven rows are commands the
host sends (spec/30_encoding.md R65). Seven rows are packets the block emits (R71): such a row is the engine's
step of one `Emit` (R14, R151), and the engine itself selects it while a protocol command runs.
-/

namespace Sys2Proof

/-- A command, with its operands as the bit fields of R62 and R63, or the `Emit` of one packet, with the packet's
header arguments and data region (R70, R71). -/
inductive Instr where
  | clear (b : Fb) (color : Color)
  | putPixel (b : Fb) (x y : Word) (color : Color)
  | drawChar (b : Fb) (x y : Word) (ch scale : Byte) (fg bg : Color)
  | drawText (b : Fb) (x y : Word) (text : List Byte) (scale : Byte) (fg bg : Color)
  | fillRect (b : Fb) (x y w h : Word) (color : Color)
  | drawBar (b : Fb) (x y w h : Word) (percent : BitVec 16) (fg bg frame : Color)
  | rotate90cw (src dst : Fb)
  | setOrientation (mode : Byte)
  | setTime (hour minute second : Byte)
  | heartbeat (hour minute second : Byte)
  | redraw (b : Fb)
  | pktOrient (mode : Byte)
  | pktTime (hour minute second : Byte)
  | pktHeartbeat (hour minute second : Byte)
  | pktStart (tail : HdrTail) (data : List Byte)
  | pktCont (seq : Byte) (tail : HdrTail) (data : List Byte)
  | pktEnd (seq : Byte) (tail : HdrTail) (data : List Byte)
  | pktSingle (tail : HdrTail) (data : List Byte)
deriving DecidableEq, Repr

/-- A packet as the engine holds it between building it and the sink's answer (R70, R71). START and
SINGLE packets carry sequence number 1 always, so they have no `seq` field. -/
inductive Packet where
  | orient (mode : Byte)
  | time (hour minute second : Byte)
  | heartbeat (hour minute second : Byte)
  | start (tail : HdrTail) (data : List Byte)
  | cont (seq : Byte) (tail : HdrTail) (data : List Byte)
  | last (seq : Byte) (tail : HdrTail) (data : List Byte)
  | single (tail : HdrTail) (data : List Byte)
deriving DecidableEq, Repr

/-- The instruction that is the `Emit` of a packet. -/
def Packet.toInstr : Packet → Instr
  | .orient mode => .pktOrient mode
  | .time h m s => .pktTime h m s
  | .heartbeat h m s => .pktHeartbeat h m s
  | .start t d => .pktStart t d
  | .cont q t d => .pktCont q t d
  | .last q t d => .pktEnd q t d
  | .single t d => .pktSingle t d

/-- The packet of a packet row, none for a command. -/
def Instr.packet? : Instr → Option Packet
  | .clear _ _ => none
  | .putPixel _ _ _ _ => none
  | .drawChar _ _ _ _ _ _ _ => none
  | .drawText _ _ _ _ _ _ _ => none
  | .fillRect _ _ _ _ _ _ => none
  | .drawBar _ _ _ _ _ _ _ _ _ => none
  | .rotate90cw _ _ => none
  | .setOrientation _ => none
  | .setTime _ _ _ => none
  | .heartbeat _ _ _ => none
  | .redraw _ => none
  | .pktOrient mode => some (.orient mode)
  | .pktTime h m s => some (.time h m s)
  | .pktHeartbeat h m s => some (.heartbeat h m s)
  | .pktStart t d => some (.start t d)
  | .pktCont q t d => some (.cont q t d)
  | .pktEnd q t d => some (.last q t d)
  | .pktSingle t d => some (.single t d)

end Sys2Proof
end

