-- ==== Sys2Proof/WellFormed.lean ====
section
/-!
DEFINITION. Which instructions exist: a string of at most 255 characters (spec/30_encoding.md R62, R74), a data region
of exactly `C` bytes (R70), and the sequence numbers a packet kind can carry (R71, spec/41_protocol.md R146).
-/

namespace Sys2Proof

/-- A packet the block can emit under a configuration: its data region has `C` bytes, and a CONTINUE or END packet is
not the first of its frame, so its sequence number is 2 to 255. -/
def Packet.wellFormed (cfg : Config) : Packet → Bool
  | .orient _ => true
  | .time _ _ _ => true
  | .heartbeat _ _ _ => true
  | .start _ d => d.length == cfg.chunk
  | .cont q _ d => decide (2 ≤ q.toNat) && d.length == cfg.chunk
  | .last q _ d => decide (2 ≤ q.toNat) && d.length == cfg.chunk
  | .single _ d => d.length == cfg.chunk

/-- A well-formed instruction. Every value of every other operand field is legal (R68). -/
def Instr.wellFormed (cfg : Config) : Instr → Bool
  | .clear _ _ => true
  | .putPixel _ _ _ _ => true
  | .drawChar _ _ _ _ _ _ _ => true
  | .drawText _ _ _ text _ _ _ => decide (text.length ≤ 255)
  | .fillRect _ _ _ _ _ _ => true
  | .drawBar _ _ _ _ _ _ _ _ _ => true
  | .rotate90cw _ _ => true
  | .setOrientation _ => true
  | .setTime _ _ _ => true
  | .heartbeat _ _ _ => true
  | .redraw _ => true
  | .pktOrient mode => (Packet.orient mode).wellFormed cfg
  | .pktTime h m s => (Packet.time h m s).wellFormed cfg
  | .pktHeartbeat h m s => (Packet.heartbeat h m s).wellFormed cfg
  | .pktStart t d => (Packet.start t d).wellFormed cfg
  | .pktCont q t d => (Packet.cont q t d).wellFormed cfg
  | .pktEnd q t d => (Packet.last q t d).wellFormed cfg
  | .pktSingle t d => (Packet.single t d).wellFormed cfg

/-- A command row, which the host may send (R65). -/
def Instr.isCommand (i : Instr) : Bool := i.packet?.isNone

end Sys2Proof
end

