-- ==== Sys2Proof/Decode.lean ====
section
/-!
DEFINITION. The command decoder and encoder (spec/30_encoding.md R60 to R68) and the packet decoder and
encoder (R70 to R73). Both decoders are total and reject by name.
-/

namespace Sys2Proof

/-! ## Fields of a command word -/

/-- `v[7:0]`, the opcode of a header word (R61). -/
def opField (v : Word) : Byte := v.extractLsb' 0 8

/-- `W0[8]`, the framebuffer select `B` (R61). -/
def bField (v : Word) : BitVec 1 := v.extractLsb' 8 1

/-- `W0[9]`, the destination select `D` (R61). -/
def dField (v : Word) : BitVec 1 := v.extractLsb' 9 1

/-- `W0[31:16]`, the argument field `A` (R61). -/
def aField (v : Word) : BitVec 16 := v.extractLsb' 16 16

/-- `A[7:0]`, which is `W0[23:16]` (R61). -/
def aLow (v : Word) : Byte := v.extractLsb' 16 8

/-- `A[15:8]`, which is `W0[31:24]` (R61). -/
def aHigh (v : Word) : Byte := v.extractLsb' 24 8

/-- Bits `[15:0]` of an operand word (R62). -/
def lowHalf (v : Word) : BitVec 16 := v.extractLsb' 0 16

/-- Bits `[31:16]` of an operand word (R62). -/
def highHalf (v : Word) : BitVec 16 := v.extractLsb' 16 16

/-- Bits `[7:0]` of an operand word (R62). -/
def lowByte (v : Word) : Byte := v.extractLsb' 0 8

/-- A select bit's framebuffer: 0 is FB0, 1 is FB1 (R62). -/
def fbOfBit (v : BitVec 1) : Fb := if v = 1#1 then .fb1 else .fb0

/-- A framebuffer's select bit (R62). -/
def Fb.bit : Fb → BitVec 1
  | .fb0 => 0#1
  | .fb1 => 1#1

/-! ## Bytes and words -/

/-- The four bytes of a word, least significant first (R60, R63). -/
def wordBytes (v : Word) : List Byte :=
  [v.extractLsb' 0 8, v.extractLsb' 8 8, v.extractLsb' 16 8, v.extractLsb' 24 8]

/-- The word of four bytes, least significant first (R60). -/
def wordOfBytes (b0 b1 b2 b3 : Byte) : Word := b3 ++ b2 ++ b1 ++ b0

/-- The whole words of a byte stream, each sent least significant byte first; bytes of a word that has not wholly
arrived are left out (R60). -/
def wordsOfBytes : List Byte → List Word
  | b0 :: b1 :: b2 :: b3 :: rest => wordOfBytes b0 b1 b2 b3 :: wordsOfBytes rest
  | _ => []

/-- The characters of the character words: character `k` in word `k / 4`, byte `k mod 4` (R63). -/
def unpackChars (ws : List Word) : List Byte := ws.flatMap wordBytes

/-- The character words of a string; the unused bytes of the last word are zero (R63). -/
def packChars : List Byte → List Word
  | [] => []
  | [a] => [wordOfBytes a 0 0 0]
  | [a, b] => [wordOfBytes a b 0 0]
  | [a, b, c] => [wordOfBytes a b c 0]
  | a :: b :: c :: d :: rest => wordOfBytes a b c d :: packChars rest

/-! ## The opcode map -/

/-- The eleven defined opcodes (R65). -/
inductive Opcode where
  | clear
  | putPixel
  | drawChar
  | drawText
  | fillRect
  | drawBar
  | rotate90cw
  | setOrientation
  | setTime
  | heartbeat
  | redraw
deriving DecidableEq, Repr

/-- All opcodes, in the table's order. -/
def Opcode.all : List Opcode :=
  [.clear, .putPixel, .drawChar, .drawText, .fillRect, .drawBar, .rotate90cw, .setOrientation, .setTime,
    .heartbeat, .redraw]

/-- The OP value of an opcode (R65). -/
def Opcode.code : Opcode → Byte
  | .clear => 0x01
  | .putPixel => 0x02
  | .drawChar => 0x03
  | .drawText => 0x04
  | .fillRect => 0x05
  | .drawBar => 0x06
  | .rotate90cw => 0x07
  | .setOrientation => 0x10
  | .setTime => 0x11
  | .heartbeat => 0x12
  | .redraw => 0x20

/-- The `mask` of a table row: the `W0` bits that must hold fixed values (R65, opcode_table.json). -/
def Opcode.mask : Opcode → Word
  | .clear => 0x0000FEFF
  | .putPixel => 0x0000FEFF
  | .drawChar => 0x0000FEFF
  | .drawText => 0x0000FEFF
  | .fillRect => 0x0000FEFF
  | .drawBar => 0x0000FEFF
  | .rotate90cw => 0xFFFFFCFF
  | .setOrientation => 0xFF00FFFF
  | .setTime => 0x0000FFFF
  | .heartbeat => 0x0000FFFF
  | .redraw => 0xFFFFFEFF

/-- The `match` of a table row. Every fixed bit outside OP is 0 (R65, opcode_table.json). -/
def Opcode.pattern (op : Opcode) : Word := op.code.setWidth 32

/-- The opcode of an OP value, none where the value is reserved (R65, R66). -/
def Opcode.ofCode (v : Byte) : Option Opcode := Opcode.all.find? fun op => op.code == v

/-- `ceil(n/4)`, the number of character words of a string of `n` characters (R63). -/
def charWords (n : Nat) : Nat := (n + 3) / 4

/-- The length of a command in words, from its header word alone (R64). A reserved OP takes one word (R67). -/
def commandLength (w0 : Word) : Nat :=
  match Opcode.ofCode (opField w0) with
  | none => 1
  | some .clear => 1
  | some .putPixel => 3
  | some .drawChar => 4
  | some .drawText => 4 + charWords (aLow w0).toNat
  | some .fillRect => 5
  | some .drawBar => 7
  | some .rotate90cw => 1
  | some .setOrientation => 1
  | some .setTime => 2
  | some .heartbeat => 2
  | some .redraw => 1

/-! ## The command decoder -/

/-- Why a decoder rejects. -/
inductive DecodeError where
  /-- No header word. -/
  | noWord
  /-- The OP value is reserved (R67). -/
  | reservedOpcode
  /-- A fixed bit of the header word is wrong (R68). -/
  | fixedField (op : Opcode)
  /-- The list is not the command's R64 words. -/
  | wrongLength (op : Opcode)
  /-- A packet is not `8 + C` bytes (R70). -/
  | packetLength
  /-- `P[0]` is not the signature, or `P[1]`, `P[2]` name no packet kind (R71). -/
  | packetKind
  /-- A packet byte that its kind fixes is wrong (R71). -/
  | packetField
deriving DecidableEq, Repr

/-- Exactly no operand word. -/
def operands0 (op : Opcode) (i : Instr) : List Word → Except DecodeError Instr
  | [] => .ok i
  | _ :: _ => .error (.wrongLength op)

/-- Exactly one operand word. -/
def operands1 (op : Opcode) (f : Word → Instr) : List Word → Except DecodeError Instr
  | [a] => .ok (f a)
  | _ => .error (.wrongLength op)

/-- Exactly two operand words. -/
def operands2 (op : Opcode) (f : Word → Word → Instr) : List Word → Except DecodeError Instr
  | [a, b] => .ok (f a b)
  | _ => .error (.wrongLength op)

/-- Exactly three operand words. -/
def operands3 (op : Opcode) (f : Word → Word → Word → Instr) : List Word → Except DecodeError Instr
  | [a, b, c] => .ok (f a b c)
  | _ => .error (.wrongLength op)

/-- Exactly four operand words. -/
def operands4 (op : Opcode) (f : Word → Word → Word → Word → Instr) : List Word → Except DecodeError Instr
  | [a, b, c, d] => .ok (f a b c d)
  | _ => .error (.wrongLength op)

/-- Exactly six operand words. -/
def operands6 (op : Opcode) (f : Word → Word → Word → Word → Word → Word → Instr) :
    List Word → Except DecodeError Instr
  | [a, b, c, d, e, g] => .ok (f a b c d e g)
  | _ => .error (.wrongLength op)

/-- Three operand words and the character words of `n` characters (R63). -/
def operandsText (op : Opcode) (n : Nat) (f : Word → Word → Word → List Byte → Instr) :
    List Word → Except DecodeError Instr
  | a :: b :: c :: chars =>
    if chars.length = charWords n then .ok (f a b c ((unpackChars chars).take n)) else .error (.wrongLength op)
  | _ => .error (.wrongLength op)

/-- The operands of a command whose header word is legal (R62, R63). -/
def decodeOperands (op : Opcode) (w0 : Word) : List Word → Except DecodeError Instr :=
  match op with
  | .clear => operands0 .clear (.clear (fbOfBit (bField w0)) (aField w0))
  | .putPixel => operands2 .putPixel fun x y => .putPixel (fbOfBit (bField w0)) x y (aField w0)
  | .drawChar => operands3 .drawChar fun x y col =>
    .drawChar (fbOfBit (bField w0)) x y (aLow w0) (aHigh w0) (lowHalf col) (highHalf col)
  | .drawText => operandsText .drawText (aLow w0).toNat fun x y col text =>
    .drawText (fbOfBit (bField w0)) x y text (aHigh w0) (lowHalf col) (highHalf col)
  | .fillRect => operands4 .fillRect fun x y w h => .fillRect (fbOfBit (bField w0)) x y w h (aField w0)
  | .drawBar => operands6 .drawBar fun x y w h col frame =>
    .drawBar (fbOfBit (bField w0)) x y w h (aField w0) (lowHalf col) (highHalf col) (lowHalf frame)
  | .rotate90cw => operands0 .rotate90cw (.rotate90cw (fbOfBit (bField w0)) (fbOfBit (dField w0)))
  | .setOrientation => operands0 .setOrientation (.setOrientation (aLow w0))
  | .setTime => operands1 .setTime fun t => .setTime (aLow w0) (aHigh w0) (lowByte t)
  | .heartbeat => operands1 .heartbeat fun t => .heartbeat (aLow w0) (aHigh w0) (lowByte t)
  | .redraw => operands0 .redraw (.redraw (fbOfBit (bField w0)))

/-- The command of a header word with its opcode, none where the OP value is reserved (R67, R68). -/
def decodeHeader (w0 : Word) (ws : List Word) : Option Opcode → Except DecodeError Instr
  | none => .error .reservedOpcode
  | some op => if w0 &&& op.mask = op.pattern then decodeOperands op w0 ws else .error (.fixedField op)

/-- The command whose words are `ws` (R65, R67, R68). -/
def decodeCommand : List Word → Except DecodeError Instr
  | [] => .error .noWord
  | w0 :: ws => decodeHeader w0 ws (Opcode.ofCode (opField w0))

/-- The words of the next command of a word stream and the words after it; none while the
command's last word is missing (R60, R64). -/
def splitCommand : List Word → Option (List Word × List Word)
  | [] => none
  | w0 :: ws =>
    if commandLength w0 ≤ (w0 :: ws).length then
      some ((w0 :: ws).take (commandLength w0), (w0 :: ws).drop (commandLength w0))
    else none

/-! ## The command encoder -/

/-- A header word: `A`, `RSV = 0`, `D`, `B`, `OP` (R61). -/
def header (op : Opcode) (a : BitVec 16) (d b : BitVec 1) : Word := a ++ 0#6 ++ d ++ b ++ op.code

/-- Two colors in one operand word, `{bg, fg}` (R62). -/
def colorPair (fg bg : Color) : Word := bg ++ fg

/-- The words of a command (R61 to R63). Ignored bits are 0. A packet has no command words. -/
def encodeCommand : Instr → List Word
  | .clear b color => [header .clear color 0 b.bit]
  | .putPixel b x y color => [header .putPixel color 0 b.bit, x, y]
  | .drawChar b x y ch scale fg bg => [header .drawChar (scale ++ ch) 0 b.bit, x, y, colorPair fg bg]
  | .drawText b x y text scale fg bg =>
    [header .drawText (scale ++ BitVec.ofNat 8 text.length) 0 b.bit, x, y, colorPair fg bg] ++ packChars text
  | .fillRect b x y w h color => [header .fillRect color 0 b.bit, x, y, w, h]
  | .drawBar b x y w h percent fg bg frame =>
    [header .drawBar percent 0 b.bit, x, y, w, h, colorPair fg bg, colorPair frame 0]
  | .rotate90cw src dst => [header .rotate90cw 0 dst.bit src.bit]
  | .setOrientation mode => [header .setOrientation ((0 : Byte) ++ mode) 0 0]
  | .setTime hour minute second => [header .setTime (minute ++ hour) 0 0, second.setWidth 32]
  | .heartbeat hour minute second => [header .heartbeat (minute ++ hour) 0 0, second.setWidth 32]
  | .redraw b => [header .redraw 0 0 b.bit]
  | .pktOrient _ => []
  | .pktTime _ _ _ => []
  | .pktHeartbeat _ _ _ => []
  | .pktStart _ _ => []
  | .pktCont _ _ _ => []
  | .pktEnd _ _ _ => []
  | .pktSingle _ _ => []

/-! ## Packets -/

/-- `SIG`, packet byte 0 (R10). -/
def sig : Byte := 0x55

/-- `CLASS_CTRL` (R10). -/
def classCtrl : Byte := 0xA1

/-- `CLASS_REDRAW` (R10). -/
def classRedraw : Byte := 0xA3

/-- `CODE_START` (R10). -/
def codeStart : Byte := 0xF0

/-- `CODE_CONT` (R10). -/
def codeCont : Byte := 0xF1

/-- `CODE_END` (R10). -/
def codeEnd : Byte := 0xF2

/-- `CODE_ORIENT` (R10). -/
def codeOrient : Byte := 0xF1

/-- The byte of SINGLE_CODE (R8). -/
def SingleCode.code : SingleCode → Byte
  | .start => codeStart
  | .stop => codeEnd

/-- The data region of a control packet, all zero (R72, R140). -/
def zeroData (cfg : Config) : List Byte := List.replicate cfg.chunk 0

/-- A redraw packet's bytes: header, then data region (R70). -/
def redrawBytes (code seq : Byte) (t : HdrTail) (data : List Byte) : List Byte :=
  [sig, classRedraw, code, seq, t.t0, t.t1, t.t2, t.t3] ++ data

/-- A control packet's bytes (R70, R140). -/
def controlBytes (cfg : Config) (code a3 a4 a5 : Byte) : List Byte :=
  [sig, classCtrl, code, a3, a4, a5, 0, 0] ++ zeroData cfg

/-- The `8 + C` bytes of a packet, in wire order (R70, R71). -/
def packetBytes (cfg : Config) : Packet → List Byte
  | .orient mode => controlBytes cfg codeOrient mode 0 0
  | .time h m s => controlBytes cfg cfg.timeCode h m s
  | .heartbeat h m s => controlBytes cfg cfg.heartbeatCode h m s
  | .start t d => redrawBytes codeStart 1 t d
  | .cont q t d => redrawBytes codeCont q t d
  | .last q t d => redrawBytes codeEnd q t d
  | .single t d => redrawBytes cfg.singleCode.code 1 t d

/-- The control packet of a code and its argument bytes. The orientation code is looked at first, then the time
code: where a configuration makes two codes equal the wire is ambiguous (R73). -/
def decodeControl (cfg : Config) (code a3 a4 a5 a6 a7 : Byte) (data : List Byte) : Except DecodeError Packet :=
  if a6 ≠ 0 ∨ a7 ≠ 0 ∨ data ≠ zeroData cfg then .error .packetField
  else if code = codeOrient then
    if a4 = 0 ∧ a5 = 0 then .ok (.orient a3) else .error .packetField
  else if code = cfg.timeCode then .ok (.time a3 a4 a5)
  else if code = cfg.heartbeatCode then .ok (.heartbeat a3 a4 a5)
  else .error .packetKind

/-- The redraw packet of a code, a sequence number, a tail and a data region. The code alone tells the kind, but for an
END code with sequence number 1, which is the packet of a one-packet frame where SINGLE_CODE is END (R73). With
SINGLE_CODE = START the wire does not tell such a packet from the first of several, and the decoder answers START (R73).
A START packet's sequence number is fixed (R71). -/
def decodeRedraw (cfg : Config) (code seq : Byte) (t : HdrTail) (data : List Byte) : Except DecodeError Packet :=
  if code = codeStart then
    if seq = 1 then .ok (.start t data) else .error .packetField
  else if code = codeCont then .ok (.cont seq t data)
  else if code = codeEnd then
    if seq = 1 ∧ cfg.singleCode = .stop then .ok (.single t data) else .ok (.last seq t data)
  else .error .packetKind

/-- Byte `k` of a packet. -/
def packetByte (p : List Byte) (k : Nat) : Byte := p.getD k 0

/-- The packet whose bytes these are: `8 + C` bytes, the kind from `P[1]` and `P[2]`, and `P[3]` for a one-packet
frame (R70 to R73). -/
def decodePacket (cfg : Config) (p : List Byte) : Except DecodeError Packet :=
  if p.length ≠ 8 + cfg.chunk then .error .packetLength
  else if packetByte p 0 ≠ sig then .error .packetKind
  else if packetByte p 1 = classCtrl then
    decodeControl cfg (packetByte p 2) (packetByte p 3) (packetByte p 4) (packetByte p 5) (packetByte p 6)
      (packetByte p 7) (p.drop 8)
  else if packetByte p 1 = classRedraw then
    decodeRedraw cfg (packetByte p 2) (packetByte p 3)
      ⟨packetByte p 4, packetByte p 5, packetByte p 6, packetByte p 7⟩ (p.drop 8)
  else .error .packetKind

/-! ## The opcode table's words -/

/-- Word `k` of an instruction whose bits are `w`, numbered as spec/opcode_table.json numbers them. -/
def tableWord (w k : Nat) : Word := BitVec.ofNat 32 (w >>> (32 * k))

/-- The R64 words of the command whose bits are the low `nbits` bits of `w` and 0 above them. -/
def tableCommand (nbits w : Nat) : List Word :=
  (List.range (commandLength (tableWord (w % 2 ^ nbits) 0))).map (tableWord (w % 2 ^ nbits))

/-- The `8 + C` bytes of the packet whose bits are the low `nbits` bits of `w` and 0 above them. -/
def tablePacket (cfg : Config) (nbits w : Nat) : List Byte :=
  (List.range (8 + cfg.chunk)).map fun k => BitVec.ofNat 8 ((w % 2 ^ nbits) >>> (8 * k))

/-- Whether a table word is a packet row's: its first byte is the packet signature, which is a reserved OP (R66). -/
def isPacketWord (nbits w : Nat) : Bool := BitVec.ofNat 8 (w % 2 ^ nbits) == sig

/-- The instruction of a table row's word: a packet where the first byte is the packet signature, else a command. A
packet is read under the default configuration. -/
def decodeTableWord (nbits w : Nat) : Option Instr :=
  if isPacketWord nbits w then
    match decodePacket Config.default (tablePacket Config.default nbits w) with
    | .ok p => some p.toInstr
    | .error _ => none
  else
    match decodeCommand (tableCommand nbits w) with
    | .ok i => some i
    | .error _ => none

end Sys2Proof
end

