-- ==== Sys2Proof/Machine/State.lean ====
section
/-!
DEFINITION. The state of the machine as plain data (spec/10_state.md), its fault and refusal reasons, and its state
after reset. Besides the block's own state (R20) it holds what the block's two neighbours put before it (R4): the
words the host has offered, the sink's coming answers, whose turn comes next, and the record of a run (R197).
-/

namespace Sys2Proof.Machine

/-- A framebuffer's cells, as (linear index, color) pairs with strictly rising indexes (R21, R43). An index that is
not listed is a cell not written since reset: `none` (R22). -/
abbrev Memory := List (Nat × Color)

/-- The sink's answer to an `Emit` (R151). -/
inductive Answer where
  | ok
  | fail
deriving DecidableEq, Repr

/-- The response of a command: STATUS, then CURSOR_X (R69). -/
structure Response where
  status  : Word
  cursorX : Word
deriving DecidableEq, Repr

/-- What runs after the sink's answer to the packet in `Emit`: the end of a control command (R140), or the rest of a
REDRAW (R149) with its counters RD_I and RD_SENT (R29) and its `FrameBytes`, taken when it started. -/
inductive Job where
  | control
  | redraw (b : Fb) (rdI rdSent : Nat) (frame : List Byte)
deriving DecidableEq, Repr

/-- The engine is idle, or busy in the `Emit` of a packet (R30, R151). A command that emits nothing runs
within one step, so no step sees the engine busy with one (R14). -/
inductive Engine where
  | idle
  | emitting (p : Packet) (job : Job)
deriving DecidableEq, Repr

/-- An `Emit` event: the packet's bytes and its answer (R151, R197); no answer where reset cut it off (R190). -/
structure EmitEvent where
  bytes  : List Byte
  answer : Option Answer
deriving DecidableEq, Repr

/-- A command that has returned: its words and the response the host took (R197). -/
structure Completion where
  words    : List Word
  response : Response
deriving DecidableEq, Repr

/-- Where the run after the last reset starts in the records: how many `Emit` events and how many completed commands
there were at that reset (R197). -/
structure RunStart where
  emits     : Nat
  completed : Nat
deriving DecidableEq, Repr

/-- What the host does to the block (R181): offers a command word, takes a response, asserts reset. -/
inductive HostAction where
  | offer (v : Word)
  | take
  | reset
deriving DecidableEq, Repr

/-- One turn of one of the three agents (R4). The sink's turn makes its next answer known. -/
inductive Turn where
  | engine
  | host (a : HostAction)
  | sink (a : Answer)
deriving DecidableEq, Repr

/-- The machine. Each field cites the rule that names it; log entries 1 to 3, 5, 6, 8 and 9 declare the model's own. -/
structure State where
  /-- The construction parameters (R26). No step writes them. -/
  cfg       : Config
  /-- `FB[0]` with `WRITTEN[0]` (R21, R22). -/
  fb0       : Memory
  /-- `FB[1]` with `WRITTEN[1]` (R21, R22). -/
  fb1       : Memory
  /-- STATUS (R23). -/
  status    : Word
  /-- CURSOR_X (R24). -/
  cursorX   : Word
  /-- Idle, or in an `Emit`, with RD_I and RD_SENT in a REDRAW (R29, R30). -/
  engine    : Engine
  /-- The words of the current command taken so far (R60, R190). -/
  words     : List Word
  /-- The response returned and not yet taken by the host (R69, R194). -/
  response  : Option Response
  /-- The words the host has offered and the block has not taken (R194). -/
  port      : List Word
  /-- The sink's answers to the `Emit`s to come (R151, U11). -/
  answers   : List Answer
  /-- Whose turns come next; when none is listed, see `defaultTurn`. -/
  turns     : List Turn
  /-- The `Emit` events so far, the packet stream (R40, R151, R197). -/
  emits     : List EmitEvent
  /-- The commands whose response the host has taken (R197). -/
  completed : List Completion
  /-- Where the records of the present run start, which is at the last reset (R197). -/
  runStart  : RunStart
deriving DecidableEq, Repr

/-- Why a step stops for good. -/
inductive Fault where
  /-- `UnwrittenPixel`: raised by REDRAW, before any packet, when some cell of its framebuffer has not been
  written since reset (R185, R44). Safe: on the chip the frame goes out with unknown bytes. -/
  | unwrittenPixel
deriving DecidableEq, Repr

/-- Why an instruction has no meaning. -/
inductive Refusal where
  /-- The instruction is not modelled yet: raised by an arm of `exec`. Safe. No arm of this model raises it. -/
  | notModelled (mnemonic : String)
deriving DecidableEq, Repr

/-- The state after reset under a configuration (R31): cells unwritten, STATUS and CURSOR_X zero, engine idle, no word
taken, no response waiting. Nothing has been offered, emitted or completed. -/
def State.resetWith (cfg : Config) : State where
  cfg := cfg
  fb0 := []
  fb1 := []
  status := 0
  cursorX := 0
  engine := .idle
  words := []
  response := none
  port := []
  answers := []
  turns := []
  emits := []
  completed := []
  runStart := ⟨0, 0⟩

/-- The machine right after power-up, which is reset (R31, R191), under the default configuration (R5, R6, R8). -/
def State.reset : State := State.resetWith Config.default

/-- Framebuffer `b`. -/
def State.fb (s : State) : Fb → Memory
  | .fb0 => s.fb0
  | .fb1 => s.fb1

/-- Framebuffer `b` replaced. -/
def State.setFb (s : State) (b : Fb) (m : Memory) : State :=
  match b with
  | .fb0 => { s with fb0 := m }
  | .fb1 => { s with fb1 := m }

end Sys2Proof.Machine
end

