-- ==== Sys2Proof/Machine/Flags.lean ====
section
/-!
DEFINITION. The STATUS register's fields and the value each outcome of a command writes (spec/10_state.md R23,
spec/60_exceptions.md R170).
-/

namespace Sys2Proof.Machine

/-- The five values of STATUS.CODE (R23, R170). -/
inductive Code where
  | ok
  | illegalCommand
  | frameSizeInvalid
  | transportFailure
  | rotateGeometry
deriving DecidableEq, Repr

/-- STATUS[3:0] of a code (R23). -/
def Code.bits : Code → BitVec 4
  | .ok => 0
  | .illegalCommand => 1
  | .frameSizeInvalid => 2
  | .transportFailure => 3
  | .rotateGeometry => 4

/-- STATUS as `finish(code, idx)` writes it: `{16'b0, idx[7:0], 4'b0, code[3:0]}` (R170). -/
def statusWord (code : Code) (idx : Nat) : Word := 0#16 ++ BitVec.ofNat 8 idx ++ 0#4 ++ code.bits

/-- STATUS.CODE (R23). -/
def statusCode (v : Word) : BitVec 4 := v.extractLsb' 0 4

/-- STATUS[7:4], hardwired 0 (R23). -/
def statusReservedLow (v : Word) : BitVec 4 := v.extractLsb' 4 4

/-- STATUS.FAIL_INDEX (R23). -/
def statusFailIndex (v : Word) : Byte := v.extractLsb' 8 8

/-- STATUS[31:16], hardwired 0 (R23). -/
def statusReservedHigh (v : Word) : BitVec 16 := v.extractLsb' 16 16

/-- The STATUS values R23 allows: CODE 0 to 4, reserved bits 0, FAIL_INDEX 0 to 254 with TRANSPORT_FAILURE and 0
with any other code. -/
def statusLegal (v : Word) : Bool :=
  decide ((statusCode v).toNat ≤ 4) && statusReservedLow v == 0 && statusReservedHigh v == 0 &&
    decide ((statusFailIndex v).toNat ≤ 254) && (statusCode v == 3 || statusFailIndex v == 0)

end Sys2Proof.Machine
end

