-- ==== Sys2Proof/Machine/Operands.lean ====
section
/-!
DEFINITION. Operand assembly: how the bit fields of a command become numbers (spec/30_encoding.md R62), and which
character codes the glyph ROM can hold (spec/00_scope.md R9).
-/

namespace Sys2Proof.Machine

/-- An `s32` operand: the two's-complement value of its 32 bits, exactly (R62, R12). -/
def s32 (v : Word) : Int := v.toInt

/-- `percent`: `sext(A)` from 16 bits (R62). -/
def percentOf (v : BitVec 16) : Int := v.toInt

/-- A zero-extended u8 operand (R62). -/
def u8 (v : Byte) : Int := v.toNat

/-- The place of a character code in GLYPH_ROM, none for a code SUPPORTED cannot hold (R9). -/
def glyphSlot (ch : Byte) : Option Nat :=
  if 0x30 ≤ ch.toNat ∧ ch.toNat ≤ 0x39 then some (ch.toNat - 0x30)
  else if 0x41 ≤ ch.toNat ∧ ch.toNat ≤ 0x5A then some (10 + (ch.toNat - 0x41))
  else if 0x61 ≤ ch.toNat ∧ ch.toNat ≤ 0x7A then some (36 + (ch.toNat - 0x61))
  else if ch.toNat = 0x3A then some 62
  else if ch.toNat = 0x20 then some 63
  else none

/-- `GLYPH_ROM(ch)`: some glyph exactly for the codes in SUPPORTED (R9). -/
def glyphRomLookup (rom : GlyphRom) (ch : Byte) : Option Glyph :=
  (glyphSlot ch).bind fun k => (rom.glyphs[k]?).join

/-- The glyph without a set bit, the blank cell (R51). -/
def blankGlyph : Glyph := ⟨0, 0, 0, 0, 0⟩

/-- `GlyphCols(ch)` (R51). -/
def glyphCols (cfg : Config) (ch : Byte) : Glyph := (glyphRomLookup cfg.glyphRom ch).getD blankGlyph

/-- Column byte `k` of a glyph, counted from the left (R51). Only columns 0 to 4 exist. -/
def glyphColumn (g : Glyph) : Nat → Byte
  | 0 => g.g0
  | 1 => g.g1
  | 2 => g.g2
  | 3 => g.g3
  | 4 => g.g4
  | _ => 0

/-- Whether the logical pixel in column `c` and row `r` of a glyph is set: bit `r` of column byte `c`, bit 0
the top row (R51). -/
def glyphBit (g : Glyph) (c r : Nat) : Bool := (glyphColumn g c).getLsbD r

end Sys2Proof.Machine
end

