-- ==== Sys2Proof/Machine/Ops.lean ====
section
/-!
DEFINITION. The named operations over framebuffers, registers and the packet stream that the meanings are written in:
the primitives of spec/00_scope.md R13, the drawing primitives of spec/40_renderer.md, the transfer plan of
spec/41_protocol.md, and the end of a command, with or without an error (spec/60_exceptions.md R170, R176).
-/

namespace Sys2Proof.Machine

/-! ## Framebuffer storage -/

/-- The cell of linear index `k`, none where it is unwritten (R22, R42). -/
def Memory.read : Memory → Nat → Option Color
  | [], _ => none
  | (a, c) :: m, k => if k = a then some c else Memory.read m k

/-- The cell of linear index `k` made `some c` (R22). -/
def Memory.write : Memory → Nat → Color → Memory
  | [], k, c => [(k, c)]
  | (a, d) :: m, k, c =>
    if k < a then (k, c) :: (a, d) :: m
    else if k = a then (k, c) :: m
    else (a, d) :: Memory.write m k c

/-- The canonical form: strictly rising indexes. -/
abbrev Memory.wf (m : Memory) : Prop := m.Pairwise fun p q => p.1 < q.1

/-- Only cells that exist are listed (R21). -/
abbrev Memory.within (m : Memory) (n : Nat) : Prop := ∀ p ∈ m, p.1 < n

/-- The linear index of cell `(x, y)` in a framebuffer of width `wd` (R43). -/
def cellIndex (wd x y : Nat) : Nat := y * wd + x

/-- `FB[b](x, y)` of a framebuffer of width `wd` (R42, R43). -/
def Memory.cell (m : Memory) (wd x y : Nat) : Option Color := m.read (cellIndex wd x y)

/-- `n` cells in row-major order, from linear index `k` on (R43). A canonical memory is walked once. -/
def Memory.cellsFrom (k : Nat) : Nat → Memory → List (Option Color)
  | 0, _ => []
  | n + 1, [] => none :: Memory.cellsFrom (k + 1) n []
  | n + 1, (a, c) :: m =>
    if a = k then some c :: Memory.cellsFrom (k + 1) n m else none :: Memory.cellsFrom (k + 1) n ((a, c) :: m)

/-! ## Drawing -/

/-- `PutPixel(b, x, y, c)` on a framebuffer of `wd × ht` cells (R41). -/
def putPixel (wd ht : Nat) (m : Memory) (x y : Int) (c : Color) : Memory :=
  if 0 ≤ x ∧ x < wd ∧ 0 ≤ y ∧ y < ht then m.write (cellIndex wd x.toNat y.toNat) c else m

/-- The numbers of `[start, start + len)` that are columns (or rows) of a framebuffer with `limit` of them, rising. -/
def clipSpan (start len : Int) (limit : Nat) : List Nat :=
  List.range' (max start 0).toNat (min (start + len) limit - max start 0).toNat

/-- `FillRect(b, x, y, w, h, c)`, over the part of the rectangle that lies in the framebuffer (R106). -/
def fillRect (wd ht : Nat) (m : Memory) (x y w h : Int) (c : Color) : Memory :=
  if w ≤ 0 ∨ h ≤ 0 then m
  else
    (clipSpan y h ht).foldl (fun m (yy : Nat) => (clipSpan x w wd).foldl (fun m (xx : Nat) => putPixel wd ht m xx yy c) m) m

/-- CLEAR's loop: every cell becomes `c` (R101). Written as the list it leaves; `Laws` proves it equal to the loop. -/
def clearCells (wd ht : Nat) (c : Color) : Memory := (List.range (wd * ht)).map fun k => (k, c)

/-- `DrawCell(b, x, y, ch, scale, fg, bg)` for the glyph of `ch` (R103): each logical pixel is a `scale × scale`
block, and the spacing column is `bg`. -/
def drawCell (wd ht : Nat) (m : Memory) (x y : Int) (g : Glyph) (scale : Int) (fg bg : Color) : Memory :=
  let glyph := (List.range 5).foldl (fun m (c : Nat) => (List.range 7).foldl (fun m (r : Nat) =>
    fillRect wd ht m (x + c * scale) (y + r * scale) scale scale (if glyphBit g c r then fg else bg)) m) m
  fillRect wd ht glyph (x + 5 * scale) y scale (7 * scale) bg

/-- DRAW_TEXT's loop from character `k` on: character `k` stands at `x + 6·scale·k` (R105). -/
def drawTextFrom (cfg : Config) (wd ht : Nat) (x y scale : Int) (fg bg : Color) :
    Nat → List Byte → Memory → Memory
  | _, [], m => m
  | k, ch :: text, m =>
    drawTextFrom cfg wd ht x y scale fg bg (k + 1) text
      (drawCell wd ht m (x + 6 * scale * k) y (glyphCols cfg ch) scale fg bg)

/-- `clamp(v, lo, hi)` (R12). -/
def clamp (v lo hi : Int) : Int := min (max v lo) hi

/-- `BarFill(percent, w)` (R108). -/
def barFill (percent w : Int) : Int :=
  if w ≤ 0 then 0 else (clamp percent 0 100 * w + 50) / 100

/-- DRAW_BAR's border, the outermost ring of the bar, only where the bar has cells (R109). -/
def drawBorder (wd ht : Nat) (m : Memory) (x y w h : Int) (c : Color) : Memory :=
  if 0 < w ∧ 0 < h then
    let top := fillRect wd ht m x y w 1 c
    let bottom := fillRect wd ht top x (y + h - 1) w 1 c
    let left := fillRect wd ht bottom x y 1 h c
    fillRect wd ht left (x + w - 1) y 1 h c
  else m

/-- DRAW_BAR's background, foreground and border, in this order (R109). -/
def drawBar (wd ht : Nat) (m : Memory) (x y w h percent : Int) (fg bg frame : Color) : Memory :=
  let back := fillRect wd ht m x y w h bg
  let front := fillRect wd ht back x y (barFill percent w) h fg
  drawBorder wd ht front x y w h frame

/-- ROTATE_90CW's geometry test (R110, R174). -/
def rotatable (cfg : Config) (src dst : Fb) : Bool :=
  decide (src ≠ dst ∧ cfg.width dst = cfg.height src ∧ cfg.height dst = cfg.width src)

/-- The destination of a rotation, cell by cell in row-major order: `FB[d](x', y') = FB[s](y', W[d]-1-x')`, the
inverse read map of R110's loop (R111 law 2). `wd × ht` are the destination's dimensions; the source's width is `ht`.
An unwritten source cell leaves its destination unwritten. -/
def rotateCells (wd ht : Nat) (src : Memory) : Memory :=
  (List.range (wd * ht)).filterMap fun k => (src.cell ht (k / wd) (wd - 1 - k % wd)).map fun c => (k, c)

/-- A drawing operation applied to framebuffer `b` with its dimensions. -/
def State.paint (s : State) (b : Fb) (f : Nat → Nat → Memory → Memory) : State :=
  s.setFb b (f (s.cfg.width b) (s.cfg.height b) (s.fb b))

/-! ## Configuration -/

/-- `F[b]`, the bytes of a frame (R45). -/
def frameSize (cfg : Config) (b : Fb) : Nat := 2 * cfg.width b * cfg.height b

/-- A configuration that exists (R5, R6, R7). -/
def configValid (cfg : Config) : Bool :=
  decide (1 ≤ cfg.chunk ∧ cfg.chunk ≤ 65535) &&
    [Fb.fb0, Fb.fb1].all fun b =>
      decide (1 ≤ cfg.width b ∧ cfg.width b ≤ 65535 ∧ 1 ≤ cfg.height b ∧ cfg.height b ≤ 65535 ∧
        0 < frameSize cfg b ∧ frameSize cfg b ≤ 255 * cfg.chunk)

/-- Construction: the machine after reset under a valid configuration; an invalid one is refused here (R7, R192). -/
def construct (cfg : Config) : Option State :=
  if configValid cfg then some (State.resetWith cfg) else none

/-! ## The color packer -/

/-- The two bytes of a pixel, low byte first (R44). -/
def colorBytes (c : Color) : List Byte := [c.extractLsb' 0 8, c.extractLsb' 8 8]

/-- The bytes of a frame's cells, none where a cell is unwritten (R44, R185). -/
def packCells : List (Option Color) → Option (List Byte)
  | [] => some []
  | none :: _ => none
  | some c :: rest => (packCells rest).map fun bytes => colorBytes c ++ bytes

/-- `FrameBytes(b)` (R44). -/
def frameBytes (s : State) (b : Fb) : Option (List Byte) :=
  packCells (Memory.cellsFrom 0 (s.cfg.width b * s.cfg.height b) (s.fb b))

/-! ## The transfer plan -/

/-- `N = ceil(F / C)` (R144). -/
def planCount (cfg : Config) (b : Fb) : Nat := (frameSize cfg b + cfg.chunk - 1) / cfg.chunk

/-- `len_i` (R144). -/
def planLen (cfg : Config) (b : Fb) (i : Nat) : Nat :=
  if i + 1 < planCount cfg b then cfg.chunk else frameSize cfg b - cfg.chunk * (planCount cfg b - 1)

/-- The default of HDR_TAIL: two little-endian 16-bit numbers (R147). -/
def hdrTailDefault (sent len chunk : Nat) : HdrTail where
  t0 := BitVec.ofNat 8 (sent / chunk)
  t1 := BitVec.ofNat 8 (sent / chunk / 256)
  t2 := BitVec.ofNat 8 (len / chunk)
  t3 := BitVec.ofNat 8 (len / chunk / 256)

/-- `HDR_TAIL(i, sent, len, C)`: the configured value where there is one, else the default (R8, R147). -/
def hdrTail (cfg : Config) (i sent len : Nat) : HdrTail :=
  match cfg.hdrTail.find? fun e => e.index == i && e.sent == sent && e.len == len && e.chunk == cfg.chunk with
  | some e => e.tail
  | none => hdrTailDefault sent len cfg.chunk

/-- A data region: `len` bytes of the frame from offset `sent` on, then zeros up to `C` (R148). -/
def planData (cfg : Config) (frame : List Byte) (sent len : Nat) : List Byte :=
  (frame.drop sent).take len ++ List.replicate (cfg.chunk - len) 0

/-- Packet `i` of a redraw of framebuffer `b`, with `sent` payload bytes before it (R145, R146, R149). -/
def redrawPacket (cfg : Config) (b : Fb) (frame : List Byte) (i sent : Nat) : Packet :=
  let len := planLen cfg b i
  let tail := hdrTail cfg i sent len
  let data := planData cfg frame sent len
  if planCount cfg b = 1 then .single tail data
  else if i = 0 then .start tail data
  else if i + 1 = planCount cfg b then .last (BitVec.ofNat 8 (i + 1)) tail data
  else .cont (BitVec.ofNat 8 (i + 1)) tail data

/-! ## The end of a command -/

/-- `finish(code, idx)`: write STATUS, return the response, become idle (R170). An error is entered through the same
operation: it saves nothing besides STATUS and transfers control nowhere (R176). There is no return from it: the next
command simply runs (R177). -/
def finish (code : Code) (idx : Nat) (s : State) : State :=
  { s with
    status := statusWord code idx
    response := some ⟨statusWord code idx, s.cursorX⟩
    engine := .idle }

/-- The end of a command that fails decoding (R67, R68, R171). -/
def rejectCommand (s : State) : State := finish .illegalCommand 0 s

/-! ## Emit -/

/-- The start of an `Emit`: the packet is handed to the sink, and the engine waits for its answer (R151). -/
def startEmit (p : Packet) (job : Job) (s : State) : State := { s with engine := .emitting p job }

/-- The start of the `Emit` of packet `i` of a REDRAW (R149). -/
def startRedrawPacket (b : Fb) (i sent : Nat) (frame : List Byte) (s : State) : State :=
  startEmit (redrawPacket s.cfg b frame i sent) (.redraw b i sent frame) s

/-- What the engine does with the sink's answer: the end of a control command (R140), REDRAW's next packet or its end
(R149), or the end of either at the first `fail`, without a retry (R152, R173). -/
def afterEmit (a : Answer) (job : Job) (s : State) : State :=
  match a, job with
  | .ok, .control => finish .ok 0 s
  | .fail, .control => finish .transportFailure 0 s
  | .ok, .redraw b i sent frame =>
    if i + 1 < planCount s.cfg b then startRedrawPacket b (i + 1) (sent + planLen s.cfg b i) frame s
    else finish .ok 0 s
  | .fail, .redraw _ i _ _ => finish .transportFailure i s

/-- The `Emit` of a packet: if it is the packet in `Emit` and the sink answers, the event is recorded and the engine
goes on (R151). With no answer yet, or no `Emit` of this packet in progress, nothing moves (R184, R196). -/
def emit (p : Packet) (s : State) : State :=
  match s.engine, s.answers with
  | .emitting q job, a :: as =>
    if q = p then
      afterEmit a job { s with answers := as, emits := s.emits ++ [⟨packetBytes s.cfg p, some a⟩] }
    else s
  | .emitting _ _, [] => s
  | .idle, _ => s

end Sys2Proof.Machine
end

