-- ==== Sys2Proof/Machine/Packets.lean ====
section
/-!
DEFINITION. The packet rows (spec/30_encoding.md R70 to R73): each is the engine's step of one `Emit`
(spec/41_protocol.md R151), from the packet in the sink's hands to the next packet or the end of the command.
-/

namespace Sys2Proof.Machine

/-- PKT_ORIENT (R141, R71). -/
def execPktOrient (mode : Byte) (s : State) : Host.Outcome State Fault Refusal :=
  .next (emit (.orient mode) s)

/-- PKT_TIME (R142, R71). -/
def execPktTime (hour minute second : Byte) (s : State) : Host.Outcome State Fault Refusal :=
  .next (emit (.time hour minute second) s)

/-- PKT_HEARTBEAT (R143, R71). -/
def execPktHeartbeat (hour minute second : Byte) (s : State) : Host.Outcome State Fault Refusal :=
  .next (emit (.heartbeat hour minute second) s)

/-- PKT_START (R149, R71). -/
def execPktStart (tail : HdrTail) (data : List Byte) (s : State) : Host.Outcome State Fault Refusal :=
  .next (emit (.start tail data) s)

/-- PKT_CONT (R149, R71). -/
def execPktCont (seq : Byte) (tail : HdrTail) (data : List Byte) (s : State) : Host.Outcome State Fault Refusal :=
  .next (emit (.cont seq tail data) s)

/-- PKT_END (R149, R71). -/
def execPktEnd (seq : Byte) (tail : HdrTail) (data : List Byte) (s : State) : Host.Outcome State Fault Refusal :=
  .next (emit (.last seq tail data) s)

/-- PKT_SINGLE (R145, R71). -/
def execPktSingle (tail : HdrTail) (data : List Byte) (s : State) : Host.Outcome State Fault Refusal :=
  .next (emit (.single tail data) s)

end Sys2Proof.Machine
end

