-- ==== Sys2Proof/Machine/Protocol.lean ====
section
/-!
DEFINITION. The protocol commands (spec/41_protocol.md R140 to R152). Each starts the `Emit` of its first packet;
the packet rows' meanings (Machine/Packets.lean) take it from there to `finish`.
-/

namespace Sys2Proof.Machine

/-- SET_ORIENTATION (R141). -/
def execSetOrientation (mode : Byte) (s : State) : Host.Outcome State Fault Refusal :=
  .next (startEmit (.orient mode) .control s)

/-- SET_TIME (R142). -/
def execSetTime (hour minute second : Byte) (s : State) : Host.Outcome State Fault Refusal :=
  .next (startEmit (.time hour minute second) .control s)

/-- HEARTBEAT (R143). -/
def execHeartbeat (hour minute second : Byte) (s : State) : Host.Outcome State Fault Refusal :=
  .next (startEmit (.heartbeat hour minute second) .control s)

/-- REDRAW (R149): the frame-size check, `FrameBytes`, and the first packet. -/
def execRedraw (b : Fb) (s : State) : Host.Outcome State Fault Refusal :=
  if frameSize s.cfg b = 0 ∨ 255 * s.cfg.chunk < frameSize s.cfg b then .next (finish .frameSizeInvalid 0 s)
  else
    match frameBytes s b with
    | none => .fault .unwrittenPixel
    | some frame => .next (startRedrawPacket b 0 0 frame s)

end Sys2Proof.Machine
end

