-- ==== Sys2Proof/Machine/Renderer.lean ====
section
/-!
DEFINITION. The renderer commands (spec/40_renderer.md R100 to R112). Each ends with `finish(OK, 0)`, but for a
rotation between buffers that do not fit.
-/

namespace Sys2Proof.Machine

/-- CLEAR (R101). -/
def execClear (b : Fb) (color : Color) (s : State) : Host.Outcome State Fault Refusal :=
  .next (finish .ok 0 (s.paint b fun wd ht _ => clearCells wd ht color))

/-- PUT_PIXEL (R102). -/
def execPutPixel (b : Fb) (x y : Word) (color : Color) (s : State) : Host.Outcome State Fault Refusal :=
  .next (finish .ok 0 (s.paint b fun wd ht m => putPixel wd ht m (s32 x) (s32 y) color))

/-- DRAW_CHAR (R104): CURSOR_X is `x + 6·scale` modulo 2^32. -/
def execDrawChar (b : Fb) (x y : Word) (ch scale : Byte) (fg bg : Color) (s : State) :
    Host.Outcome State Fault Refusal :=
  .next (finish .ok 0
    { s.paint b fun wd ht m => drawCell wd ht m (s32 x) (s32 y) (glyphCols s.cfg ch) (u8 scale) fg bg with
      cursorX := BitVec.ofInt 32 (s32 x + 6 * u8 scale) })

/-- DRAW_TEXT (R105): CURSOR_X is `x + 6·scale·n` modulo 2^32. -/
def execDrawText (b : Fb) (x y : Word) (text : List Byte) (scale : Byte) (fg bg : Color) (s : State) :
    Host.Outcome State Fault Refusal :=
  .next (finish .ok 0
    { s.paint b fun wd ht m => drawTextFrom s.cfg wd ht (s32 x) (s32 y) (u8 scale) fg bg 0 text m with
      cursorX := BitVec.ofInt 32 (s32 x + 6 * u8 scale * text.length) })

/-- FILL_RECT (R107). -/
def execFillRect (b : Fb) (x y w h : Word) (color : Color) (s : State) : Host.Outcome State Fault Refusal :=
  .next (finish .ok 0 (s.paint b fun wd ht m => fillRect wd ht m (s32 x) (s32 y) (s32 w) (s32 h) color))

/-- DRAW_BAR (R109). -/
def execDrawBar (b : Fb) (x y w h : Word) (percent : BitVec 16) (fg bg frame : Color) (s : State) :
    Host.Outcome State Fault Refusal :=
  .next (finish .ok 0 (s.paint b fun wd ht m =>
    drawBar wd ht m (s32 x) (s32 y) (s32 w) (s32 h) (percentOf percent) fg bg frame))

/-- ROTATE_90CW (R110). -/
def execRotate90cw (src dst : Fb) (s : State) : Host.Outcome State Fault Refusal :=
  if rotatable s.cfg src dst then
    .next (finish .ok 0 (s.paint dst fun wd ht _ => rotateCells wd ht (s.fb src)))
  else .next (finish .rotateGeometry 0 s)

end Sys2Proof.Machine
end

