-- ==== Sys2Proof/Machine/Dispatch.lean ====
section
/-!
DEFINITION. The meaning of each instruction, one arm for each constructor.
-/

namespace Sys2Proof.Machine

/-- The effect of an instruction. -/
def exec (i : Instr) (s : State) : Host.Outcome State Fault Refusal :=
  match i with
  | .clear b color => Sys2Proof.Machine.execClear b color s
  | .putPixel b x y color => Sys2Proof.Machine.execPutPixel b x y color s
  | .drawChar b x y ch scale fg bg => Sys2Proof.Machine.execDrawChar b x y ch scale fg bg s
  | .drawText b x y text scale fg bg => Sys2Proof.Machine.execDrawText b x y text scale fg bg s
  | .fillRect b x y w h color => Sys2Proof.Machine.execFillRect b x y w h color s
  | .drawBar b x y w h percent fg bg frame => Sys2Proof.Machine.execDrawBar b x y w h percent fg bg frame s
  | .rotate90cw src dst => Sys2Proof.Machine.execRotate90cw src dst s
  | .setOrientation mode => Sys2Proof.Machine.execSetOrientation mode s
  | .setTime hour minute second => Sys2Proof.Machine.execSetTime hour minute second s
  | .heartbeat hour minute second => Sys2Proof.Machine.execHeartbeat hour minute second s
  | .redraw b => Sys2Proof.Machine.execRedraw b s
  | .pktOrient mode => Sys2Proof.Machine.execPktOrient mode s
  | .pktTime hour minute second => Sys2Proof.Machine.execPktTime hour minute second s
  | .pktHeartbeat hour minute second => Sys2Proof.Machine.execPktHeartbeat hour minute second s
  | .pktStart tail data => Sys2Proof.Machine.execPktStart tail data s
  | .pktCont seq tail data => Sys2Proof.Machine.execPktCont seq tail data s
  | .pktEnd seq tail data => Sys2Proof.Machine.execPktEnd seq tail data s
  | .pktSingle tail data => Sys2Proof.Machine.execPktSingle tail data s

end Sys2Proof.Machine
end

