-- ==== Sys2Proof/Machine/Engine.lean ====
section
/-!
DEFINITION. The turns of the three agents (spec/00_scope.md R4): the engine takes commands from the port
and runs them (spec/30_encoding.md R60, R64, R67, R68), the host acts on the block (spec/60_exceptions.md R181,
spec/70_reset_and_hazards.md R190, R194), and the sink answers (spec/41_protocol.md R151).
-/

namespace Sys2Proof.Machine

/-- A whole command, taken: run it, or reject it (R60, R67, R68). -/
def runCommand (cmd : List Word) (s : State) : Host.Outcome State Fault Refusal :=
  match decodeCommand cmd with
  | .ok i => exec i s
  | .error _ => .next (rejectCommand s)

/-- The idle engine's turn. It takes no word while a response waits for the host (R194). It takes the words the host
has offered, and runs the command once it has the last of its words; until then it waits (R60). -/
def takeCommand (s : State) : Host.Outcome State Fault Refusal :=
  if s.response.isSome then .next s
  else
    match splitCommand (s.words ++ s.port) with
    | none => .next { s with words := s.words ++ s.port, port := [] }
    | some (cmd, rest) => runCommand cmd { s with words := cmd, port := rest }

/-- The engine's turn: the `Emit` in progress, or the next command (R4, R30). -/
def engineTurn (s : State) : Host.Outcome State Fault Refusal :=
  match s.engine with
  | .emitting p _ => exec p.toInstr s
  | .idle => takeCommand s

/-- The host takes the response, which completes the command (R69, R194, R197). -/
def hostTake (s : State) : State :=
  match s.response with
  | none => s
  | some r => { s with response := none, words := [], completed := s.completed ++ [⟨s.words, r⟩] }

/-- The `Emit` event that reset cuts off, if one is in progress (R190). -/
def cutEmit (s : State) : List EmitEvent :=
  match s.engine with
  | .idle => []
  | .emitting p _ => [⟨packetBytes s.cfg p, none⟩]

/-- Reset (R190, R31). The configuration stays, and the packets before it stay emitted. R190 does not say what becomes of
what is outside the block, nor of a response returned and not yet taken. DESIGN CHOICE, log entry 9: the words not
yet taken, the coming answers and turns, and the records stay; the waiting response is dropped, and its command
joins no record. The records of the new run start here (R197). -/
def hostReset (s : State) : State :=
  { State.resetWith s.cfg with
    port := s.port
    answers := s.answers
    turns := s.turns
    emits := s.emits ++ cutEmit s
    completed := s.completed
    runStart := ⟨(s.emits ++ cutEmit s).length, s.completed.length⟩ }

/-- The host's turn (R181). A word it offers waits in the port (R194). -/
def hostTurn (a : HostAction) (s : State) : State :=
  match a with
  | .offer v => { s with port := s.port ++ [v] }
  | .take => hostTake s
  | .reset => hostReset s

/-- The sink's turn: one more answer is known (R151). -/
def sinkTurn (a : Answer) (s : State) : State := { s with answers := s.answers ++ [a] }

/-- One listed turn. -/
def takeTurn (t : Turn) (s : State) : Host.Outcome State Fault Refusal :=
  match t with
  | .engine => engineTurn s
  | .host a => .next (hostTurn a s)
  | .sink a => .next (sinkTurn a s)

/-- The turn when none is listed: the host takes a waiting response, as it must (R181), else the engine moves. -/
def defaultTurn (s : State) : Host.Outcome State Fault Refusal :=
  if s.response.isSome then .next (hostTake s) else engineTurn s

/-- A state that is about to take a command: idle, no response waiting, no word taken, the engine's turn, and the
command's words first in the port. -/
def withCommand (s : State) (cmd : List Word) : State :=
  { s with
    engine := .idle
    response := none
    words := []
    port := cmd ++ s.port
    turns := .engine :: s.turns }

/-- The command a packet belongs to. A redraw packet is taken as packet `seq - 1` of a redraw of FB0 whose frame is
zero. -/
def packetJob (cfg : Config) (p : Packet) : Job :=
  match p with
  | .orient _ => .control
  | .time _ _ _ => .control
  | .heartbeat _ _ _ => .control
  | .start _ _ => .redraw .fb0 0 0 (List.replicate (frameSize cfg .fb0) 0)
  | .cont q _ _ => .redraw .fb0 (q.toNat - 1) (cfg.chunk * (q.toNat - 1)) (List.replicate (frameSize cfg .fb0) 0)
  | .last q _ _ => .redraw .fb0 (q.toNat - 1) (cfg.chunk * (q.toNat - 1)) (List.replicate (frameSize cfg .fb0) 0)
  | .single _ _ => .redraw .fb0 0 0 (List.replicate (frameSize cfg .fb0) 0)

/-- A state in the `Emit` of a packet, with an answer known: the engine's turn runs that packet. -/
def withPacket (s : State) (p : Packet) : State :=
  { s with
    engine := .emitting p (packetJob s.cfg p)
    response := none
    answers := if s.answers = [] then [.ok] else s.answers
    turns := .engine :: s.turns }

end Sys2Proof.Machine
end

