-- ==== Sys2Proof/Machine/Step.lean ====
section
/-!
DEFINITION. One step of the machine, which is one turn of one agent (spec/00_scope.md R4, R14), and the placing of
an instruction where the next step takes it.
-/

namespace Sys2Proof.Machine

/-- One step: the next listed turn, else the default turn. -/
def step (s : State) : Host.Outcome State Fault Refusal :=
  match s.turns with
  | [] => defaultTurn s
  | t :: ts => takeTurn t { s with turns := ts }

/-- `s` with the instruction of a table word as what the next step runs: a command first in the port (R28: the host
pushes commands), or a packet in `Emit`. -/
def State.withFetchWord (s : State) (nbits w : Nat) : State :=
  if isPacketWord nbits w then
    match decodePacket s.cfg (tablePacket s.cfg nbits w) with
    | .ok p => withPacket s p
    | .error _ => withCommand s (tableCommand nbits w)
  else withCommand s (tableCommand nbits w)

end Sys2Proof.Machine
end

