-- ==== Sys2Proof/Machine/Assembler.lean ====
section
/-!
DEFINITION. The assembler (spec/30_encoding.md R74, R75): one line of text to the words it places in the command
stream, or a refusal. It is no part of the block: the host side uses it to write commands.
-/

namespace Sys2Proof.Machine

/-! ## Lines and tokens -/

/-- A token of a line. A string's characters are their codes, as `lex` gives them. -/
inductive Token where
  | name (cs : List Char)
  | comma
  | chr (v : Nat)
  | str (vs : List Nat)
deriving DecidableEq, Repr

/-- Where the lexer stands: between tokens, in a name, in a string, or in a character literal. -/
inductive LexMode where
  | plain
  | name (rev : List Char)
  | str (rev : List Nat)
  | chrOpen
  | chrClose (v : Nat)
deriving DecidableEq, Repr

/-- The double quote that opens and closes a string (R74). -/
def isQuote (c : Char) : Bool := c.toNat == 0x22

/-- The apostrophe that opens and closes a character (R74). -/
def isApostrophe (c : Char) : Bool := c.toNat == 0x27

/-- The tokens of a line; text after `;` is a comment (R74). DESIGN CHOICE, log entry 14: R74 gives no code for a
character outside ASCII in `'c'` or `"..."`; here every character has its Unicode code point as its code. -/
def lex : LexMode → List Char → Option (List Token)
  | .plain, [] => some []
  | .plain, c :: cs =>
    if c = ' ' ∨ c = '\t' then lex .plain cs
    else if c = ';' then some []
    else if c = ',' then (lex .plain cs).map (Token.comma :: ·)
    else if isQuote c then lex (.str []) cs
    else if isApostrophe c then lex .chrOpen cs
    else lex (.name [c]) cs
  | .name r, [] => some [.name r.reverse]
  | .name r, c :: cs =>
    if c = ' ' ∨ c = '\t' then (lex .plain cs).map (Token.name r.reverse :: ·)
    else if c = ';' then some [.name r.reverse]
    else if c = ',' then (lex .plain cs).map fun ts => .name r.reverse :: .comma :: ts
    else lex (.name (c :: r)) cs
  | .str _, [] => none
  | .str r, c :: cs =>
    if isQuote c then (lex .plain cs).map (Token.str r.reverse :: ·) else lex (.str (c.toNat :: r)) cs
  | .chrOpen, [] => none
  | .chrOpen, c :: cs => lex (.chrClose c.toNat) cs
  | .chrClose _, [] => none
  | .chrClose v, c :: cs => if isApostrophe c then (lex .plain cs).map (Token.chr v :: ·) else none

/-! ## Operands -/

/-- The value of a digit in a base. -/
def digitValue (base : Nat) (c : Char) : Option Nat :=
  let v :=
    if '0' ≤ c ∧ c ≤ '9' then c.toNat - 0x30
    else if 'a' ≤ c ∧ c ≤ 'f' then c.toNat - 0x61 + 10
    else if 'A' ≤ c ∧ c ≤ 'F' then c.toNat - 0x41 + 10
    else base
  if v < base then some v else none

/-- The value of digits after a value already read. -/
def digitsValue (base : Nat) : Nat → List Char → Option Nat
  | v, [] => some v
  | v, c :: cs => (digitValue base c).bind fun d => digitsValue base (v * base + d) cs

/-- A decimal or `0x` hexadecimal number (R74). -/
def natValue : List Char → Option Nat
  | [] => none
  | ['0', 'x'] => none
  | '0' :: 'x' :: cs => digitsValue 16 0 cs
  | c :: cs => digitsValue 10 0 (c :: cs)

/-- A number, with a minus sign or without. DESIGN CHOICE, log entry 14: R74 gives no sign; a minus sign may stand before a
decimal and before a `0x` number. -/
def intValue : List Char → Option Int
  | '-' :: cs => (natValue cs).map fun v => -v
  | cs => (natValue cs).map fun v => (v : Int)

/-- An operand of a line (R74). -/
inductive Operand where
  | fb (b : Fb)
  | num (v : Int)
  | str (vs : List Nat)
deriving DecidableEq, Repr

/-- The operand of a token; a framebuffer is `fb0` or `fb1` and no other (R74). DESIGN CHOICE, log entry 14: R74 gives `'c'`
for a character; here it may stand wherever a number may, as its code. -/
def operandOf : Token → Option Operand
  | .name cs =>
    if cs = ['f', 'b', '0'] then some (.fb .fb0)
    else if cs = ['f', 'b', '1'] then some (.fb .fb1)
    else (intValue cs).map .num
  | .comma => none
  | .chr v => some (.num v)
  | .str vs => some (.str vs)

/-- The operands after the first, each after a comma. -/
def moreOperands : List Token → Option (List Operand)
  | [] => some []
  | .comma :: t :: ts => (operandOf t).bind fun o => (moreOperands ts).map (o :: ·)
  | _ => none

/-- The operands of a line, with commas between them (R74). -/
def operandsOf : List Token → Option (List Operand)
  | [] => some []
  | t :: ts => (operandOf t).bind fun o => (moreOperands ts).map (o :: ·)

/-- An unsigned field of `n` bits; a value that does not fit is refused (R74). -/
def unsignedField (n : Nat) (v : Int) : Option (BitVec n) :=
  if 0 ≤ v ∧ v < 2 ^ n then some (BitVec.ofInt n v) else none

/-- A two's-complement field of `n` bits; a value that does not fit is refused (R74). -/
def signedField (n : Nat) (v : Int) : Option (BitVec n) :=
  if -2 ^ n ≤ 2 * v ∧ 2 * v < 2 ^ n then some (BitVec.ofInt n v) else none

/-- The characters of a string; more than 255 of them are refused (R74), and so is a code above 255. -/
def textField (vs : List Nat) : Option (List Byte) :=
  if vs.length ≤ 255 then vs.mapM fun v => unsignedField 8 v else none

/-! ## Commands -/

/-- What a line's first word asks for: a command, the directive `.word`, or the pseudo-instruction (R74, R75). -/
inductive Mnemonic where
  | command (op : Opcode)
  | word
  | timeOrHeartbeat
deriving DecidableEq, Repr

/-- The spelling of each mnemonic (R74, R75). -/
def mnemonicTable : List (List Char × Mnemonic) :=
  [("CLEAR".toList, .command .clear), ("PUT_PIXEL".toList, .command .putPixel),
    ("DRAW_CHAR".toList, .command .drawChar), ("DRAW_TEXT".toList, .command .drawText),
    ("FILL_RECT".toList, .command .fillRect), ("DRAW_BAR".toList, .command .drawBar),
    ("ROTATE_90CW".toList, .command .rotate90cw), ("SET_ORIENTATION".toList, .command .setOrientation),
    ("SET_TIME".toList, .command .setTime), ("HEARTBEAT".toList, .command .heartbeat),
    ("REDRAW".toList, .command .redraw), (".word".toList, .word), ("TIME_OR_HEARTBEAT".toList, .timeOrHeartbeat)]

/-- The command of an opcode and its operands, in DOC's argument order (R74). -/
def assembleCommand (op : Opcode) (os : List Operand) : Option Instr :=
  match op, os with
  | .clear, [.fb b, .num color] => do return .clear b (← unsignedField 16 color)
  | .putPixel, [.fb b, .num x, .num y, .num color] => do
    return .putPixel b (← signedField 32 x) (← signedField 32 y) (← unsignedField 16 color)
  | .drawChar, [.fb b, .num x, .num y, .num ch, .num scale, .num fg, .num bg] => do
    return .drawChar b (← signedField 32 x) (← signedField 32 y) (← unsignedField 8 ch) (← unsignedField 8 scale)
      (← unsignedField 16 fg) (← unsignedField 16 bg)
  | .drawText, [.fb b, .num x, .num y, .str text, .num scale, .num fg, .num bg] => do
    return .drawText b (← signedField 32 x) (← signedField 32 y) (← textField text) (← unsignedField 8 scale)
      (← unsignedField 16 fg) (← unsignedField 16 bg)
  | .fillRect, [.fb b, .num x, .num y, .num w, .num h, .num color] => do
    return .fillRect b (← signedField 32 x) (← signedField 32 y) (← signedField 32 w) (← signedField 32 h)
      (← unsignedField 16 color)
  | .drawBar, [.fb b, .num x, .num y, .num w, .num h, .num percent, .num fg, .num bg, .num frame] => do
    return .drawBar b (← signedField 32 x) (← signedField 32 y) (← signedField 32 w) (← signedField 32 h)
      (← signedField 16 percent) (← unsignedField 16 fg) (← unsignedField 16 bg) (← unsignedField 16 frame)
  | .rotate90cw, [.fb src, .fb dst] => some (.rotate90cw src dst)
  | .setOrientation, [.num mode] => do return .setOrientation (← unsignedField 8 mode)
  | .setTime, [.num hour, .num minute, .num second] => do
    return .setTime (← unsignedField 8 hour) (← unsignedField 8 minute) (← unsignedField 8 second)
  | .heartbeat, [.num hour, .num minute, .num second] => do
    return .heartbeat (← unsignedField 8 hour) (← unsignedField 8 minute) (← unsignedField 8 second)
  | .redraw, [.fb b] => some (.redraw b)
  | _, _ => none

/-- The pseudo-instruction TIME_OR_HEARTBEAT (R75). -/
def assembleTimeOrHeartbeat : List Operand → Option Instr
  | .num isSetTime :: os => assembleCommand (if isSetTime ≠ 0 then .setTime else .heartbeat) os
  | _ => none

/-- The words of a mnemonic with its operands (R74, R75). -/
def assembleWith (m : Mnemonic) (os : List Operand) : Option (List Word) :=
  match m, os with
  | .command op, os => (assembleCommand op os).map encodeCommand
  | .timeOrHeartbeat, os => (assembleTimeOrHeartbeat os).map encodeCommand
  | .word, [.num v] => (unsignedField 32 v).map fun w => [w]
  | .word, _ => none

/-- The words a line places in the command stream; none where the assembler refuses it. A line with no
command places no word (R74). -/
def assembleLine (line : List Char) : Option (List Word) :=
  (lex .plain line).bind fun tokens =>
    match tokens with
    | [] => some []
    | .name cs :: ts =>
      (mnemonicTable.find? fun p => p.1 == cs).bind fun p => (operandsOf ts).bind fun os => assembleWith p.2 os
    | _ => none

/-- The words of a program, line by line (R74). -/
def assemble (lines : List (List Char)) : Option (List Word) := (lines.mapM assembleLine).map List.flatten

end Sys2Proof.Machine
end

