-- ==== Sys2Proof/Safety.lean ====
section
/-!
DEFINITION. The terms the claims are stated in: what a drawing command paints, what a returned command leaves
unchanged, the invariant of a step, runs, and the end of a run (spec/70_reset_and_hazards.md R197).
-/

namespace Sys2Proof.Machine

/-! ## Pictures -/

/-- The color R103 gives the pixel `(px, py)` of a character cell at `(x, y)`, none outside the
`6·scale × 7·scale` cell. Column 5 is the spacing column, where no glyph has a bit. -/
def cellPaint (g : Glyph) (x y scale : Int) (fg bg : Color) (px py : Int) : Option Color :=
  if x ≤ px ∧ px < x + 6 * scale ∧ y ≤ py ∧ py < y + 7 * scale then
    some (if glyphBit g ((px - x) / scale).toNat ((py - y) / scale).toNat then fg else bg)
  else none

/-- The color R105 gives the pixel `(px, py)` of a string whose character `k`, the first listed, stands at
`x + 6·scale·k`; none outside its cells. -/
def textPaint (cfg : Config) (x y scale : Int) (fg bg : Color) (k : Nat) (text : List Byte) (px py : Int) :
    Option Color :=
  (text.zipIdx k).findSome? fun p => cellPaint (glyphCols cfg p.1) (x + 6 * scale * p.2) y scale fg bg px py

/-- The color R107 gives the pixel `(px, py)`: the half-open rectangle (R106). -/
def rectPaint (x y w h : Int) (color : Color) (px py : Int) : Option Color :=
  if x ≤ px ∧ px < x + w ∧ y ≤ py ∧ py < y + h then some color else none

/-- The color R109 gives the pixel `(px, py)`: border over foreground over background, none outside the bar. -/
def barPaint (x y w h percent : Int) (fg bg frame : Color) (px py : Int) : Option Color :=
  if x ≤ px ∧ px < x + w ∧ y ≤ py ∧ py < y + h then
    some (if px = x ∨ px = x + w - 1 ∨ py = y ∨ py = y + h - 1 then frame
      else if px < x + barFill percent w then fg
      else bg)
  else none

/-- Framebuffer `b` of `t` is that of `s` with `f` painted over it: a cell where `f` gives a color holds that color,
every other cell is as before; every other stored cell and the other framebuffer are as before. -/
structure DrawsOnly (s t : State) (b : Fb) (f : Int → Int → Option Color) : Prop where
  cell   : ∀ px py : Nat, px < s.cfg.width b → py < s.cfg.height b →
    (t.fb b).cell (s.cfg.width b) px py = (f px py).or ((s.fb b).cell (s.cfg.width b) px py)
  beyond : ∀ k, s.cfg.width b * s.cfg.height b ≤ k → (t.fb b).read k = (s.fb b).read k
  other  : ∀ b', b' ≠ b → t.fb b' = s.fb b'

/-- No cell of either framebuffer changes. -/
abbrev SameFramebuffers (s t : State) : Prop := ∀ b, t.fb b = s.fb b

/-- Every cell of framebuffer `b` has been written since reset (R22). -/
def AllWritten (s : State) (b : Fb) : Prop :=
  ∀ x y : Nat, x < s.cfg.width b → y < s.cfg.height b → ((s.fb b).cell (s.cfg.width b) x y).isSome

/-! ## The end of a command -/

/-- From `s` a command has returned in `t` with STATUS `st` and CURSOR_X `cur` (R69, R170): the engine is
idle, and nothing but the response, the two registers and the framebuffers may differ, with the `Emit` events
and the answers said apart. -/
structure Returned (s t : State) (st cur : Word) : Prop where
  status    : t.status = st
  cursorX   : t.cursorX = cur
  response  : t.response = some ⟨st, cur⟩
  engine    : t.engine = .idle
  cfg       : t.cfg = s.cfg
  words     : t.words = s.words
  port      : t.port = s.port
  turns     : t.turns = s.turns
  completed : t.completed = s.completed
  runStart  : t.runStart = s.runStart

/-- No packet goes out and no answer is used. -/
structure EmitsNothing (s t : State) : Prop where
  emits   : t.emits = s.emits
  answers : t.answers = s.answers

/-! ## Command classes -/

/-- The renderer commands (R65). -/
def isRenderer : Instr → Bool
  | .clear _ _ => true
  | .putPixel _ _ _ _ => true
  | .drawChar _ _ _ _ _ _ _ => true
  | .drawText _ _ _ _ _ _ _ => true
  | .fillRect _ _ _ _ _ _ => true
  | .drawBar _ _ _ _ _ _ _ _ _ => true
  | .rotate90cw _ _ => true
  | .setOrientation _ => false
  | .setTime _ _ _ => false
  | .heartbeat _ _ _ => false
  | .redraw _ => false
  | .pktOrient _ => false
  | .pktTime _ _ _ => false
  | .pktHeartbeat _ _ _ => false
  | .pktStart _ _ => false
  | .pktCont _ _ _ => false
  | .pktEnd _ _ _ => false
  | .pktSingle _ _ => false

/-- The two commands that write CURSOR_X (R24). -/
def writesCursor : Instr → Bool
  | .drawChar _ _ _ _ _ _ _ => true
  | .drawText _ _ _ _ _ _ _ => true
  | .clear _ _ => false
  | .putPixel _ _ _ _ => false
  | .fillRect _ _ _ _ _ _ => false
  | .drawBar _ _ _ _ _ _ _ _ _ => false
  | .rotate90cw _ _ => false
  | .setOrientation _ => false
  | .setTime _ _ _ => false
  | .heartbeat _ _ _ => false
  | .redraw _ => false
  | .pktOrient _ => false
  | .pktTime _ _ _ => false
  | .pktHeartbeat _ _ _ => false
  | .pktStart _ _ => false
  | .pktCont _ _ _ => false
  | .pktEnd _ _ _ => false
  | .pktSingle _ _ => false

/-- A control packet, which answers for a control command (R140). -/
def isControlPacket : Packet → Bool
  | .orient _ => true
  | .time _ _ _ => true
  | .heartbeat _ _ _ => true
  | .start _ _ => false
  | .cont _ _ _ => false
  | .last _ _ _ => false
  | .single _ _ => false

/-! ## The invariant -/

/-- An engine state a run can reach: in a control command a control packet is in `Emit`; in a REDRAW, RD_I counts
packets below `N`, RD_SENT is `C × RD_I` (R29), the frame has `F` bytes (R45), and the packet in `Emit` is packet RD_I of
the plan (R149). -/
def engineLegal (cfg : Config) : Engine → Prop
  | .idle => True
  | .emitting p .control => isControlPacket p = true
  | .emitting p (.redraw b i sent frame) =>
    frame.length = frameSize cfg b ∧ i < planCount cfg b ∧ sent = cfg.chunk * i ∧
      p = redrawPacket cfg b frame i sent

/-- The invariant of a step. -/
structure State.Inv (s : State) : Prop where
  /-- The configuration exists (R7). -/
  config    : configValid s.cfg = true
  /-- The framebuffers are in canonical form. -/
  form      : ∀ b, (s.fb b).wf
  /-- Only cells that exist hold a color (R21). -/
  bounds    : ∀ b, (s.fb b).within (s.cfg.width b * s.cfg.height b)
  /-- STATUS holds a value R23 allows. -/
  status    : statusLegal s.status = true
  /-- A waiting response is that of an idle engine, and shows the two registers (R69). -/
  response  : ∀ r, s.response = some r → s.engine = .idle ∧ r = ⟨s.status, s.cursorX⟩
  /-- The engine is in a reachable state (R29, R30). -/
  engine    : engineLegal s.cfg s.engine
  /-- Every emitted packet has `8 + C` bytes (R70). -/
  emits     : ∀ e ∈ s.emits, e.bytes.length = 8 + s.cfg.chunk
  /-- Every response the host took holds a legal STATUS (R23). -/
  completed : ∀ c ∈ s.completed, statusLegal c.response.status = true
  /-- The present run's records are a part of the records (R197). -/
  runStart  : s.runStart.emits ≤ s.emits.length ∧ s.runStart.completed ≤ s.completed.length

/-! ## Runs -/

/-- `k` steps. -/
def run (k : Nat) (s : State) : Host.Outcome State Fault Refusal := Host.Core.run Sys2Proof.core k s

/-- A safe run: its first `k` steps raise no model fault (R185). -/
def RunsSafely (k : Nat) (s : State) : Prop := ∃ t, run k s = .next t

/-- A turn in which the host sends nothing and resets nothing. -/
def isQuiet : Turn → Bool
  | .engine => true
  | .host (.offer _) => false
  | .host .take => true
  | .host .reset => false
  | .sink _ => true

/-- A run has ended: the engine is idle, so no `Emit` is waiting; the response to the last command has been taken; and
that command is the last, for no word of a further one is taken, offered, or still to be offered by a listed turn
(R197). A listed reset, which starts another run, leaves the run open too. -/
def RunEnded (s : State) : Prop :=
  s.engine = .idle ∧ s.response = none ∧ s.words = [] ∧ s.port = [] ∧ ∀ t ∈ s.turns, isQuiet t = true

/-- The next step is the engine's turn and leaves the turns `ts`: it is listed, or none is listed and no response waits
for the host. -/
def EngineMoves (s : State) (ts : List Turn) : Prop :=
  s.turns = .engine :: ts ∨ (s.turns = [] ∧ ts = [] ∧ s.response = none)

/-- The observation of a run: its own commands and `Emit` events, and the final registers and framebuffers (R197). -/
structure Observation where
  completed : List Completion
  emits     : List EmitEvent
  fb0       : Memory
  fb1       : Memory
  status    : Word
  cursorX   : Word
deriving DecidableEq, Repr

/-- What a run that ends in `s` shows: of the records, what came after the last reset (R197). -/
def State.observation (s : State) : Observation where
  completed := s.completed.drop s.runStart.completed
  emits := s.emits.drop s.runStart.emits
  fb0 := s.fb0
  fb1 := s.fb1
  status := s.status
  cursorX := s.cursorX

/-- The payload of an emitted redraw packet: its data region cut to `len` bytes (R150). -/
def payloadOf (e : EmitEvent) (len : Nat) : List Byte := (e.bytes.drop 8).take len

/-! ## The assembler -/

/-- The operands that stand for a command, in DOC's argument order, each at its exact value; none stand for a
packet (R74). -/
def assemblerOperands : Instr → List Operand
  | .clear b color => [.fb b, .num color.toNat]
  | .putPixel b x y color => [.fb b, .num x.toInt, .num y.toInt, .num color.toNat]
  | .drawChar b x y ch scale fg bg =>
    [.fb b, .num x.toInt, .num y.toInt, .num ch.toNat, .num scale.toNat, .num fg.toNat, .num bg.toNat]
  | .drawText b x y text scale fg bg =>
    [.fb b, .num x.toInt, .num y.toInt, .str (text.map BitVec.toNat), .num scale.toNat, .num fg.toNat, .num bg.toNat]
  | .fillRect b x y w h color => [.fb b, .num x.toInt, .num y.toInt, .num w.toInt, .num h.toInt, .num color.toNat]
  | .drawBar b x y w h percent fg bg frame =>
    [.fb b, .num x.toInt, .num y.toInt, .num w.toInt, .num h.toInt, .num percent.toInt, .num fg.toNat,
      .num bg.toNat, .num frame.toNat]
  | .rotate90cw src dst => [.fb src, .fb dst]
  | .setOrientation mode => [.num mode.toNat]
  | .setTime hour minute second => [.num hour.toNat, .num minute.toNat, .num second.toNat]
  | .heartbeat hour minute second => [.num hour.toNat, .num minute.toNat, .num second.toNat]
  | .redraw b => [.fb b]
  | .pktOrient _ => []
  | .pktTime _ _ _ => []
  | .pktHeartbeat _ _ _ => []
  | .pktStart _ _ => []
  | .pktCont _ _ _ => []
  | .pktEnd _ _ _ => []
  | .pktSingle _ _ => []

/-- A u8, u16, s16 or s32 value (R62, R74). -/
abbrev fitsU8 (v : Int) : Prop := 0 ≤ v ∧ v ≤ 255
abbrev fitsU16 (v : Int) : Prop := 0 ≤ v ∧ v ≤ 0xFFFF
abbrev fitsS16 (v : Int) : Prop := -32768 ≤ v ∧ v ≤ 32767
abbrev fitsS32 (v : Int) : Prop := -2147483648 ≤ v ∧ v ≤ 2147483647

/-- The operands a mnemonic takes: their kinds in DOC's argument order, each value in its field, a string of at most 255
characters of 8 bits (R74, R62). -/
def operandsFit : Opcode → List Operand → Prop
  | .clear, [.fb _, .num color] => fitsU16 color
  | .putPixel, [.fb _, .num x, .num y, .num color] => fitsS32 x ∧ fitsS32 y ∧ fitsU16 color
  | .drawChar, [.fb _, .num x, .num y, .num ch, .num scale, .num fg, .num bg] =>
    fitsS32 x ∧ fitsS32 y ∧ fitsU8 ch ∧ fitsU8 scale ∧ fitsU16 fg ∧ fitsU16 bg
  | .drawText, [.fb _, .num x, .num y, .str text, .num scale, .num fg, .num bg] =>
    fitsS32 x ∧ fitsS32 y ∧ text.length ≤ 255 ∧ (∀ v ∈ text, v ≤ 255) ∧ fitsU8 scale ∧ fitsU16 fg ∧ fitsU16 bg
  | .fillRect, [.fb _, .num x, .num y, .num w, .num h, .num color] =>
    fitsS32 x ∧ fitsS32 y ∧ fitsS32 w ∧ fitsS32 h ∧ fitsU16 color
  | .drawBar, [.fb _, .num x, .num y, .num w, .num h, .num percent, .num fg, .num bg, .num frame] =>
    fitsS32 x ∧ fitsS32 y ∧ fitsS32 w ∧ fitsS32 h ∧ fitsS16 percent ∧ fitsU16 fg ∧ fitsU16 bg ∧ fitsU16 frame
  | .rotate90cw, [.fb _, .fb _] => True
  | .setOrientation, [.num mode] => fitsU8 mode
  | .setTime, [.num hour, .num minute, .num second] => fitsU8 hour ∧ fitsU8 minute ∧ fitsU8 second
  | .heartbeat, [.num hour, .num minute, .num second] => fitsU8 hour ∧ fitsU8 minute ∧ fitsU8 second
  | .redraw, [.fb _] => True
  | _, _ => False

end Sys2Proof.Machine
end

