-- ==== Sys2Proof/Certificates/Slice0/Obligations.lean ====
section
/-!
DEFINITION. The statements about the display core, for the provers. Each formalises rules of spec/, or the model's own
conventions where its docstring says so.
-/

open Sys2Proof Sys2Proof.Machine

/-! ## Commands: encoding, decoding, the command stream -/

/-- R61 to R63, R65: decoding a well-formed command's words gives the command back, with every operand at every
value. -/
def Obligations.CommandDecodeEncode : Prop :=
  ∀ (cfg : Config) (i : Instr), i.isCommand = true → i.wellFormed cfg = true →
    decodeCommand (encodeCommand i) = .ok i

/-- R60, R64: in a stream the words of a command are told from its header word alone, and no word after them is
taken. -/
def Obligations.StreamSplitsAfterCommand : Prop :=
  ∀ (cfg : Config) (i : Instr) (rest : List Word), i.isCommand = true → i.wellFormed cfg = true →
    splitCommand (encodeCommand i ++ rest) = some (encodeCommand i, rest)

/-- Whatever words the decoder accepts, the command is a well-formed one (R62, R63). -/
def Obligations.DecodedCommandIsWellFormed : Prop :=
  ∀ (cfg : Config) (ws : List Word) (i : Instr), decodeCommand ws = .ok i →
    i.isCommand = true ∧ i.wellFormed cfg = true

/-- Words of spec/95_test_vectors.md, one of each command, and the command each stands for. -/
def Obligations.SampleWordsDecode : Prop :=
  decodeCommand [0x001F0001] = .ok (.clear .fb0 0x001F) ∧
  decodeCommand [0xFFFF0102, 0x00000003, 0x00000000] = .ok (.putPixel .fb1 3 0 0xFFFF) ∧
  decodeCommand [0x02310003, 0x00000000, 0x00000000, 0x00020001] = .ok (.drawChar .fb0 0 0 0x31 2 1 2) ∧
  decodeCommand [0x01050004, 0x00000000, 0x00000000, 0x00020001, 0x31313131, 0xFFFFFF32] =
    .ok (.drawText .fb0 0 0 [0x31, 0x31, 0x31, 0x31, 0x32] 1 1 2) ∧
  decodeCommand [0x00010005, 0xFFFFFFFF, 0xFFFFFFFF, 0x00000003, 0x00000003] =
    .ok (.fillRect .fb0 0xFFFFFFFF 0xFFFFFFFF 3 3 1) ∧
  decodeCommand [0xFFF90006, 0, 0, 4, 3, 0x00020001, 0x00000003] =
    .ok (.drawBar .fb0 0 0 4 3 0xFFF9 1 2 3) ∧
  decodeCommand [0x00000207] = .ok (.rotate90cw .fb0 .fb1) ∧
  decodeCommand [0x00010010] = .ok (.setOrientation 1) ∧
  decodeCommand [0x3B170011, 0x00000007] = .ok (.setTime 23 59 7) ∧
  decodeCommand [0x220C0012, 0xFFFFFF38] = .ok (.heartbeat 12 34 56) ∧
  decodeCommand [0x00000120] = .ok (.redraw .fb1)

/-- R64: the length of a command in words, from its header word: fixed for each opcode, `4 + ceil(n/4)` for
DRAW_TEXT (4 to 68), and 1 for every other OP. -/
def Obligations.CommandLengthFromHeader : Prop :=
  ∀ w0 : Word,
    ((opField w0).toNat ∈ [0x01, 0x07, 0x10, 0x20] → commandLength w0 = 1) ∧
    ((opField w0).toNat ∈ [0x11, 0x12] → commandLength w0 = 2) ∧
    ((opField w0).toNat = 0x02 → commandLength w0 = 3) ∧
    ((opField w0).toNat = 0x03 → commandLength w0 = 4) ∧
    ((opField w0).toNat = 0x04 →
      4 * (commandLength w0 - 4) < (w0.extractLsb' 16 8).toNat + 4 ∧
      (w0.extractLsb' 16 8).toNat ≤ 4 * (commandLength w0 - 4) ∧
      4 ≤ commandLength w0 ∧ commandLength w0 ≤ 68) ∧
    ((opField w0).toNat = 0x05 → commandLength w0 = 5) ∧
    ((opField w0).toNat = 0x06 → commandLength w0 = 7) ∧
    ((opField w0).toNat ∉ [0x01, 0x02, 0x03, 0x04, 0x05, 0x06, 0x07, 0x10, 0x11, 0x12, 0x20] →
      commandLength w0 = 1)

/-- R66, R67: exactly the OP values 0x00, 0x08 to 0x0F, 0x13 to 0x1F and 0x21 to 0xFF are reserved; the decoder
rejects each as reserved, and such a command is one word. -/
def Obligations.ReservedOpcodesRejected : Prop :=
  ∀ (w0 : Word) (ws : List Word),
    (decodeCommand (w0 :: ws) = .error .reservedOpcode ↔
      (opField w0).toNat = 0x00 ∨ (0x08 ≤ (opField w0).toNat ∧ (opField w0).toNat ≤ 0x0F) ∨
      (0x13 ≤ (opField w0).toNat ∧ (opField w0).toNat ≤ 0x1F) ∨ 0x21 ≤ (opField w0).toNat) ∧
    (decodeCommand (w0 :: ws) = .error .reservedOpcode → commandLength w0 = 1)

/-- R65, R68: a command with a defined OP is rejected for its header word exactly when RSV is not 0, or D is not 0
outside ROTATE_90CW, or A is not 0 in ROTATE_90CW or REDRAW, or A[15:8] is not 0 in SET_ORIENTATION, or B is not 0
in a control command. -/
def Obligations.FixedFieldViolationsRejected : Prop :=
  ∀ (op : Opcode) (w0 : Word) (ws : List Word), opField w0 = op.code →
    (decodeCommand (w0 :: ws) = .error (.fixedField op) ↔
      w0.extractLsb' 10 6 ≠ 0#6 ∨
      (op ≠ .rotate90cw ∧ w0.extractLsb' 9 1 ≠ 0#1) ∨
      ((op = .rotate90cw ∨ op = .redraw) ∧ w0.extractLsb' 16 16 ≠ 0#16) ∨
      (op = .setOrientation ∧ w0.extractLsb' 24 8 ≠ 0#8) ∨
      ((op = .setOrientation ∨ op = .setTime ∨ op = .heartbeat) ∧ w0.extractLsb' 8 1 ≠ 0#1))

/-- R62, R63, R68: the ignored bits do not matter: W6[31:16] of DRAW_BAR, W1[31:8] of SET_TIME and HEARTBEAT, and the pad
bytes of DRAW_TEXT's last word. -/
def Obligations.IgnoredBitsDoNotMatter : Prop :=
  (∀ w0 x y w h col f f' : Word, (opField w0).toNat = 0x06 → f.extractLsb' 0 16 = f'.extractLsb' 0 16 →
    decodeCommand [w0, x, y, w, h, col, f] = decodeCommand [w0, x, y, w, h, col, f']) ∧
  (∀ w0 v v' : Word, (opField w0).toNat = 0x11 ∨ (opField w0).toNat = 0x12 →
    v.extractLsb' 0 8 = v'.extractLsb' 0 8 → decodeCommand [w0, v] = decodeCommand [w0, v']) ∧
  (∀ (w0 x y col : Word) (cs cs' : List Word), (opField w0).toNat = 0x04 → cs.length = cs'.length →
    (∀ k, k < (w0.extractLsb' 16 8).toNat →
      (cs[k / 4]?).map (fun v => v.extractLsb' (8 * (k % 4)) 8) =
        (cs'[k / 4]?).map (fun v => v.extractLsb' (8 * (k % 4)) 8)) →
    decodeCommand (w0 :: x :: y :: col :: cs) = decodeCommand (w0 :: x :: y :: col :: cs'))

/-- A step runs the decoded command: when the words taken and offered hold a whole command that decodes, the engine's
turn is `exec` of it, at the state with its words taken from the port. -/
def Obligations.StepRunsDecodedCommand : Prop :=
  ∀ (s : State) (ts : List Turn) (cmd rest : List Word) (i : Instr),
    EngineMoves s ts → s.engine = .idle → s.response = none →
    splitCommand (s.words ++ s.port) = some (cmd, rest) → decodeCommand cmd = .ok i →
    step s = exec i { s with words := cmd, port := rest, turns := ts }

/-- A step runs the packet in `Emit`: the engine's turn is `exec` of that packet's row (R151). That an `Emit` is a step of
its own and is `exec` of a packet row is the model's choice, log entry 7. -/
def Obligations.StepRunsPacketInEmit : Prop :=
  ∀ (s : State) (ts : List Turn) (p : Packet) (job : Job),
    EngineMoves s ts → s.engine = .emitting p job →
    step s = exec p.toInstr { s with turns := ts }

/-- R67, R68, R171, R176: a whole command fails decoding only for a reserved OP or a wrong fixed bit; it takes its R64
words, leaves the framebuffers and CURSOR_X as they are, emits nothing, and returns ILLEGAL_COMMAND with FAIL_INDEX 0. -/
def Obligations.IllegalCommandOnlyReports : Prop :=
  ∀ (s : State) (ts : List Turn) (cmd rest : List Word) (e : DecodeError),
    EngineMoves s ts → s.engine = .idle → s.response = none →
    splitCommand (s.words ++ s.port) = some (cmd, rest) → decodeCommand cmd = .error e →
    (e = .reservedOpcode ∨ ∃ op, e = .fixedField op) ∧
    ∃ t, step s = .next t ∧ SameFramebuffers s t ∧ EmitsNothing s t ∧
      Returned { s with words := cmd, port := rest, turns := ts } t 1 s.cursorX

/-- R60: while words of a command are missing the engine waits. That one turn takes all the words the host has offered is
the model's choice, log entry 16. -/
def Obligations.EngineWaitsForMissingWords : Prop :=
  ∀ (s : State) (ts : List Turn), EngineMoves s ts → s.engine = .idle → s.response = none →
    splitCommand (s.words ++ s.port) = none →
    step s = .next { s with words := s.words ++ s.port, port := [], turns := ts }

/-- R194: while a command runs, and while its response waits for the host, no word leaves the port and no other command
starts: words the host offers wait behind those already there. Only reset, left to `ResetAtAnyTime`, stops a
command. -/
def Obligations.NoCommandBeforeResponseTaken : Prop :=
  ∀ (s t : State), s.engine ≠ .idle ∨ s.response ≠ none → (∀ ts, s.turns ≠ .host .reset :: ts) → step s = .next t →
    (t.port = s.port ∨ ∃ v ts, s.turns = .host (.offer v) :: ts ∧ t.port = s.port ++ [v]) ∧
    (t.words = s.words ∨ (s.response ≠ none ∧ t.response = none ∧ t.words = [])) ∧
    (s.engine = .idle → t.engine = .idle)

/-- R69, R197: the host takes the response, and the pair of command and response joins the run's record. When no
turn is listed the host takes a waiting response at once, which is the model's choice (log entry 3). -/
def Obligations.HostTakesResponse : Prop :=
  ∀ (s : State) (ts : List Turn) (r : Response), s.response = some r →
    s.turns = .host .take :: ts ∨ (s.turns = [] ∧ ts = []) →
    step s = .next { s with
      response := none, words := [], completed := s.completed ++ [⟨s.words, r⟩], turns := ts }

/-- R60, R151, R181: at the host's turn to offer a word, whatever the block is doing, the word joins the end of the port;
at the sink's turn its answer joins the end of the answers; a host that takes a response while none waits changes
nothing. None of these changes anything else. That turns and answers are lists is the model's choice, log entries
3 and 5. -/
def Obligations.HostOffersAndSinkAnswers : Prop :=
  ∀ (s : State) (ts : List Turn),
    (∀ v, s.turns = .host (.offer v) :: ts → step s = .next { s with port := s.port ++ [v], turns := ts }) ∧
    (∀ a, s.turns = .sink a :: ts → step s = .next { s with answers := s.answers ++ [a], turns := ts }) ∧
    (s.turns = .host .take :: ts → s.response = none → step s = .next { s with turns := ts })

/-! ## Renderer commands -/

/-- R101: CLEAR makes every cell of its framebuffer the color and changes nothing else; STATUS 0, CURSOR_X unchanged. The
premise, a part of the invariant, says that only cells that exist are stored. -/
def Obligations.ClearFillsFramebuffer : Prop :=
  ∀ (b : Fb) (color : Color) (s : State), (s.fb b).within (s.cfg.width b * s.cfg.height b) →
    ∃ t, exec (.clear b color) s = .next t ∧ DrawsOnly s t b (fun _ _ => some color) ∧
      Returned s t 0 s.cursorX ∧ EmitsNothing s t

/-- R41, R102: PUT_PIXEL writes the one cell `(x, y)` if it exists, and no other cell; STATUS 0, CURSOR_X
unchanged. -/
def Obligations.PutPixelWritesOneCell : Prop :=
  ∀ (b : Fb) (x y : Word) (color : Color) (s : State),
    ∃ t, exec (.putPixel b x y color) s = .next t ∧
      DrawsOnly s t b (fun px py => if px = x.toInt ∧ py = y.toInt then some color else none) ∧
      Returned s t 0 s.cursorX ∧ EmitsNothing s t

/-- R103, R104: DRAW_CHAR paints the character cell, clipped, and nothing else; CURSOR_X is `x + 6·scale` modulo 2^32,
STATUS 0. -/
def Obligations.DrawCharPaintsCell : Prop :=
  ∀ (b : Fb) (x y : Word) (ch scale : Byte) (fg bg : Color) (s : State),
    ∃ t, exec (.drawChar b x y ch scale fg bg) s = .next t ∧
      DrawsOnly s t b (cellPaint (glyphCols s.cfg ch) x.toInt y.toInt scale.toNat fg bg) ∧
      Returned s t 0 (BitVec.ofInt 32 (x.toInt + 6 * scale.toNat)) ∧ EmitsNothing s t

/-- R51, R104: a code without a glyph is drawn as a `6·scale × 7·scale` rectangle of `bg`, and still advances
CURSOR_X. -/
def Obligations.UnsupportedCharIsBackground : Prop :=
  ∀ (b : Fb) (x y : Word) (ch scale : Byte) (fg bg : Color) (s : State),
    glyphRomLookup s.cfg.glyphRom ch = none →
    ∃ t, exec (.drawChar b x y ch scale fg bg) s = .next t ∧
      DrawsOnly s t b (rectPaint x.toInt y.toInt (6 * scale.toNat) (7 * scale.toNat) bg) ∧
      Returned s t 0 (BitVec.ofInt 32 (x.toInt + 6 * scale.toNat)) ∧ EmitsNothing s t

/-- R9, R51: only the codes `0`-`9`, `A`-`Z`, `a`-`z`, `:` and space can have a glyph, each has a place of its own in
GLYPH_ROM and its glyph is that place's entry, so that every partial map from these codes to glyphs is some ROM; and
`GlyphCols` is that glyph where there is one and five zero columns where there is none. The places are the model's
choice, log entry 11. -/
def Obligations.GlyphColumnsOfSupportedCodes : Prop :=
  (∀ ch : Byte, (glyphSlot ch).isSome = true ↔
    (0x30 ≤ ch.toNat ∧ ch.toNat ≤ 0x39) ∨ (0x41 ≤ ch.toNat ∧ ch.toNat ≤ 0x5A) ∨
    (0x61 ≤ ch.toNat ∧ ch.toNat ≤ 0x7A) ∨ ch.toNat = 0x3A ∨ ch.toNat = 0x20) ∧
  (∀ (ch ch' : Byte) (k : Nat), glyphSlot ch = some k → glyphSlot ch' = some k → ch = ch' ∧ k < 64) ∧
  (∀ (rom : GlyphRom) (ch : Byte) (k : Nat) (hk : k < 64), glyphSlot ch = some k →
    glyphRomLookup rom ch = rom.glyphs[k]) ∧
  (∀ f : Byte → Option Glyph, (∀ ch, glyphSlot ch = none → f ch = none) →
    ∃ rom : GlyphRom, ∀ ch, glyphRomLookup rom ch = f ch) ∧
  (∀ (cfg : Config) (ch : Byte) (g : Glyph), glyphRomLookup cfg.glyphRom ch = some g →
    (glyphSlot ch).isSome = true ∧ glyphCols cfg ch = g) ∧
  (∀ (cfg : Config) (ch : Byte), glyphRomLookup cfg.glyphRom ch = none → glyphCols cfg ch = ⟨0, 0, 0, 0, 0⟩)

/-- R105: DRAW_TEXT paints its characters' cells side by side, clipped, and nothing else; CURSOR_X is
`x + 6·scale·n` modulo 2^32, STATUS 0. -/
def Obligations.DrawTextPaintsCells : Prop :=
  ∀ (b : Fb) (x y : Word) (text : List Byte) (scale : Byte) (fg bg : Color) (s : State),
    ∃ t, exec (.drawText b x y text scale fg bg) s = .next t ∧
      DrawsOnly s t b (textPaint s.cfg x.toInt y.toInt scale.toNat fg bg 0 text) ∧
      Returned s t 0 (BitVec.ofInt 32 (x.toInt + 6 * scale.toNat * text.length)) ∧ EmitsNothing s t

/-- R112 law 2: a string is its characters, drawn one after the other by DRAW_CHAR at `x + 6·scale·k`: drawing one more
character is drawing the string without it and then that character, with the same CURSOR_X. -/
def Obligations.TextIsItsCharacters : Prop :=
  ∀ (b : Fb) (x x' y : Word) (text : List Byte) (ch scale : Byte) (fg bg : Color) (s : State),
    x'.toInt = x.toInt + 6 * scale.toNat * text.length →
    ∃ t, exec (.drawText b x y text scale fg bg) s = .next t ∧
      exec (.drawText b x y (text ++ [ch]) scale fg bg) s = exec (.drawChar b x' y ch scale fg bg) t

/-- R106, R107: FILL_RECT paints the part of `[x, x+w) × [y, y+h)` that exists, and nothing else; STATUS 0,
CURSOR_X unchanged. -/
def Obligations.FillRectPaintsRectangle : Prop :=
  ∀ (b : Fb) (x y w h : Word) (color : Color) (s : State),
    ∃ t, exec (.fillRect b x y w h color) s = .next t ∧
      DrawsOnly s t b (rectPaint x.toInt y.toInt w.toInt h.toInt color) ∧
      Returned s t 0 s.cursorX ∧ EmitsNothing s t

/-- R109: DRAW_BAR paints border over foreground over background in `[x, x+w) × [y, y+h)`, clipped, and nothing else;
STATUS 0, CURSOR_X unchanged. -/
def Obligations.DrawBarPaintsBar : Prop :=
  ∀ (b : Fb) (x y w h : Word) (percent : BitVec 16) (fg bg frame : Color) (s : State),
    ∃ t, exec (.drawBar b x y w h percent fg bg frame) s = .next t ∧
      DrawsOnly s t b (barPaint x.toInt y.toInt w.toInt h.toInt percent.toInt fg bg frame) ∧
      Returned s t 0 s.cursorX ∧ EmitsNothing s t

/-- R108: BarFill is `floor((clamp(percent, 0, 100)·w + 50) / 100)`, halves rounded up, and 0 for `w ≤ 0`. That it is between
0 and `w`, 0 for a percent of at most 0 and `w` for a percent of at least 100, is what R108 marks as derived. -/
def Obligations.BarFillRoundsHalfUp : Prop :=
  ∀ percent w : Int,
    (w ≤ 0 → barFill percent w = 0) ∧
    (0 < w →
      (∀ p : Int, (p = percent ∧ 0 ≤ percent ∧ percent ≤ 100) ∨ (p = 0 ∧ percent < 0) ∨ (p = 100 ∧ 100 < percent) →
        100 * barFill percent w ≤ p * w + 50 ∧ p * w + 50 < 100 * barFill percent w + 100) ∧
      0 ≤ barFill percent w ∧ barFill percent w ≤ w ∧
      (percent ≤ 0 → barFill percent w = 0) ∧ (100 ≤ percent → barFill percent w = w))

/-- R110: between two framebuffers of transposed dimensions, ROTATE_90CW copies source cell `(x, y)` to destination
cell `(W[d]-1-y, x)`, an unwritten cell as unwritten; the source, CURSOR_X and everything stored elsewhere stay,
STATUS 0. -/
def Obligations.RotateCopiesClockwise : Prop :=
  ∀ (src dst : Fb) (s : State), src ≠ dst → s.cfg.width dst = s.cfg.height src →
    s.cfg.height dst = s.cfg.width src → (s.fb dst).within (s.cfg.width dst * s.cfg.height dst) →
    ∃ t, exec (.rotate90cw src dst) s = .next t ∧ t.fb src = s.fb src ∧
      (∀ x y : Nat, x < s.cfg.width src → y < s.cfg.height src →
        (t.fb dst).cell (s.cfg.width dst) (s.cfg.width dst - 1 - y) x = (s.fb src).cell (s.cfg.width src) x y) ∧
      (∀ k, s.cfg.width dst * s.cfg.height dst ≤ k → (t.fb dst).read k = (s.fb dst).read k) ∧
      Returned s t 0 s.cursorX ∧ EmitsNothing s t

/-- R110, R174: with `s = d`, or dimensions that are not transposed, ROTATE_90CW writes nothing and returns
ROTATE_GEOMETRY. -/
def Obligations.RotateRefusesGeometry : Prop :=
  ∀ (src dst : Fb) (s : State),
    src = dst ∨ s.cfg.width dst ≠ s.cfg.height src ∨ s.cfg.height dst ≠ s.cfg.width src →
    exec (.rotate90cw src dst) s =
      .next { s with status := 4, response := some ⟨4, s.cursorX⟩, engine := .idle }

/-- R111 law 3: a rotation there and one back turn the picture by 180°. -/
def Obligations.TwoRotationsTurnHalf : Prop :=
  ∀ (a b : Fb) (s : State), a ≠ b → s.cfg.width b = s.cfg.height a → s.cfg.height b = s.cfg.width a →
    ∃ s1 s2, exec (.rotate90cw a b) s = .next s1 ∧ exec (.rotate90cw b a) s1 = .next s2 ∧
      ∀ x y : Nat, x < s.cfg.width a → y < s.cfg.height a →
        (s2.fb a).cell (s.cfg.width a) x y =
          (s.fb a).cell (s.cfg.width a) (s.cfg.width a - 1 - x) (s.cfg.height a - 1 - y)

/-- R111 law 4: four rotations that alternate between the framebuffers restore the first one exactly, unwritten cells
among it. The premises are parts of the invariant. -/
def Obligations.FourRotationsRestore : Prop :=
  ∀ (a b : Fb) (s : State), a ≠ b → s.cfg.width b = s.cfg.height a → s.cfg.height b = s.cfg.width a →
    (s.fb a).wf → (s.fb a).within (s.cfg.width a * s.cfg.height a) →
    ∃ s1 s2 s3 s4, exec (.rotate90cw a b) s = .next s1 ∧ exec (.rotate90cw b a) s1 = .next s2 ∧
      exec (.rotate90cw a b) s2 = .next s3 ∧ exec (.rotate90cw b a) s3 = .next s4 ∧ s4.fb a = s.fb a

/-- R100: a renderer command returns at once, emits nothing, and its response does not depend on what the
framebuffers hold. -/
def Obligations.RendererResponseIgnoresPixels : Prop :=
  ∀ (i : Instr) (s : State) (m0 m1 : Memory), isRenderer i = true →
    ∃ t t', exec i s = .next t ∧ exec i { s with fb0 := m0, fb1 := m1 } = .next t' ∧
      t.engine = .idle ∧ t.response.isSome = true ∧ t'.response = t.response ∧ t'.cursorX = t.cursorX ∧
      EmitsNothing s t ∧ EmitsNothing s t'

/-! ## Control commands -/

/-- R140, R141: SET_ORIENTATION emits `[55, A1, F1, mode, 0, 0, 0, 0]` and `C` zeros, and returns STATUS 0 when the sink
answers ok and TRANSPORT_FAILURE with index 0 when it answers fail; CURSOR_X and the framebuffers are unchanged. That
the command's `exec` ends in the `Emit` and the packet row's `exec` is the answer is the model's choice, log entry 7. -/
def Obligations.SetOrientationSendsPacket : Prop :=
  ∀ (mode : Byte) (s : State),
    exec (.setOrientation mode) s = .next { s with engine := .emitting (.orient mode) .control } ∧
    ∀ (a : Answer) (as : List Answer) (st : Word), s.answers = a :: as → st = (if a = .ok then 0 else 3) →
      exec (.pktOrient mode) { s with engine := .emitting (.orient mode) .control } =
        .next { s with
          answers := as
          emits := s.emits ++
            [⟨[0x55, 0xA1, 0xF1, mode, 0, 0, 0, 0] ++ List.replicate s.cfg.chunk 0, some a⟩]
          engine := .idle, status := st, response := some ⟨st, s.cursorX⟩ }

/-- R140, R142: SET_TIME emits `[55, A1, TIME_CODE, hour, minute, second, 0, 0]` and `C` zeros, and returns STATUS 0
or TRANSPORT_FAILURE with index 0; CURSOR_X and the framebuffers are unchanged. The split into two `exec`s is the
model's choice, log entry 7. -/
def Obligations.SetTimeSendsPacket : Prop :=
  ∀ (hour minute second : Byte) (s : State),
    exec (.setTime hour minute second) s =
      .next { s with engine := .emitting (.time hour minute second) .control } ∧
    ∀ (a : Answer) (as : List Answer) (st : Word), s.answers = a :: as → st = (if a = .ok then 0 else 3) →
      exec (.pktTime hour minute second) { s with engine := .emitting (.time hour minute second) .control } =
        .next { s with
          answers := as
          emits := s.emits ++
            [⟨[0x55, 0xA1, s.cfg.timeCode, hour, minute, second, 0, 0] ++ List.replicate s.cfg.chunk 0, some a⟩]
          engine := .idle, status := st, response := some ⟨st, s.cursorX⟩ }

/-- R140, R143: HEARTBEAT emits `[55, A1, HEARTBEAT_CODE, hour, minute, second, 0, 0]` and `C` zeros, and returns
STATUS 0 or TRANSPORT_FAILURE with index 0; CURSOR_X and the framebuffers are unchanged. The split into two `exec`s is
the model's choice, log entry 7. -/
def Obligations.HeartbeatSendsPacket : Prop :=
  ∀ (hour minute second : Byte) (s : State),
    exec (.heartbeat hour minute second) s =
      .next { s with engine := .emitting (.heartbeat hour minute second) .control } ∧
    ∀ (a : Answer) (as : List Answer) (st : Word), s.answers = a :: as → st = (if a = .ok then 0 else 3) →
      exec (.pktHeartbeat hour minute second)
          { s with engine := .emitting (.heartbeat hour minute second) .control } =
        .next { s with
          answers := as
          emits := s.emits ++
            [⟨[0x55, 0xA1, s.cfg.heartbeatCode, hour, minute, second, 0, 0] ++ List.replicate s.cfg.chunk 0,
              some a⟩]
          engine := .idle, status := st, response := some ⟨st, s.cursorX⟩ }

/-! ## REDRAW -/

/-- R44, R45, R149: REDRAW of a fully written framebuffer takes its frame of `F` bytes, two for each pixel in row-major
order, low byte first, and starts the `Emit` of packet 0 with RD_I and RD_SENT 0; nothing else changes. The canonical
form is a part of the invariant. That `exec` ends in the first `Emit`, and that the engine's job keeps the frame, are
the model's choices, log entries 7 and 8. -/
def Obligations.RedrawStartsWithFrame : Prop :=
  ∀ (b : Fb) (s : State), 0 < 2 * s.cfg.width b * s.cfg.height b →
    2 * s.cfg.width b * s.cfg.height b ≤ 255 * s.cfg.chunk → (s.fb b).wf → AllWritten s b →
    ∃ frame : List Byte,
      exec (.redraw b) s = .next { s with
        engine := .emitting (redrawPacket s.cfg b frame 0 0) (.redraw b 0 0 frame) } ∧
      frame.length = 2 * s.cfg.width b * s.cfg.height b ∧
      ∀ (x y : Nat) (c : Color), x < s.cfg.width b → y < s.cfg.height b →
        (s.fb b).cell (s.cfg.width b) x y = some c →
        frame[2 * (y * s.cfg.width b + x)]? = some (c.extractLsb' 0 8) ∧
        frame[2 * (y * s.cfg.width b + x) + 1]? = some (c.extractLsb' 8 8)

/-- R185: REDRAW of a framebuffer with an unwritten cell raises the model fault UnwrittenPixel, before any packet. -/
def Obligations.RedrawOfUnwrittenFaults : Prop :=
  ∀ (b : Fb) (s : State), 0 < 2 * s.cfg.width b * s.cfg.height b →
    2 * s.cfg.width b * s.cfg.height b ≤ 255 * s.cfg.chunk → (s.fb b).wf → ¬ AllWritten s b →
    exec (.redraw b) s = .fault .unwrittenPixel

/-- R149, R172: REDRAW of a frame of no bytes, or of more than `255·C`, returns FRAME_SIZE_INVALID before any packet and
changes nothing else; by R7 no valid configuration has such a frame, and under a valid configuration no
instruction returns a response with CODE 2. -/
def Obligations.RedrawRefusesFrameSize : Prop :=
  (∀ (b : Fb) (s : State),
    2 * s.cfg.width b * s.cfg.height b = 0 ∨ 255 * s.cfg.chunk < 2 * s.cfg.width b * s.cfg.height b →
    exec (.redraw b) s = .next { s with status := 2, response := some ⟨2, s.cursorX⟩, engine := .idle }) ∧
  (∀ (b : Fb) (cfg : Config), configValid cfg = true →
    ¬ (2 * cfg.width b * cfg.height b = 0 ∨ 255 * cfg.chunk < 2 * cfg.width b * cfg.height b)) ∧
  ∀ (i : Instr) (s t : State) (r : Response), configValid s.cfg = true → s.response = none →
    exec i s = .next t → t.response = some r → r.status.extractLsb' 0 4 ≠ 2#4

/-- R70, R71, R145, R146, R148: the bytes of packet `i` of a redraw: `55 A3`, the code, `i + 1`, the tail, the slice of
the frame, zeros up to `C`; `8 + C` bytes in all. -/
def Obligations.RedrawPacketBytes : Prop :=
  ∀ (cfg : Config) (b : Fb) (frame : List Byte) (i N len : Nat) (code : Byte) (tail : HdrTail),
    frame.length = 2 * cfg.width b * cfg.height b → 0 < cfg.chunk → 0 < frame.length →
    frame.length ≤ 255 * cfg.chunk →
    N = (frame.length + cfg.chunk - 1) / cfg.chunk → i < N →
    len = (if i < N - 1 then cfg.chunk else frame.length - cfg.chunk * (N - 1)) →
    code = (if N = 1 then cfg.singleCode.code else if i = 0 then 0xF0 else if i = N - 1 then 0xF2 else 0xF1) →
    tail = hdrTail cfg i (cfg.chunk * i) len →
    packetBytes cfg (redrawPacket cfg b frame i (cfg.chunk * i)) =
      [0x55, 0xA3, code, BitVec.ofNat 8 (i + 1), tail.t0, tail.t1, tail.t2, tail.t3] ++
        (frame.drop (cfg.chunk * i)).take len ++ List.replicate (cfg.chunk - len) 0 ∧
    (packetBytes cfg (redrawPacket cfg b frame i (cfg.chunk * i))).length = 8 + cfg.chunk

/-- R147: where no other HDR_TAIL is configured, the tail of packet `i` is the chunk index and then 1 for a full chunk and
0 for a short one, each a little-endian 16-bit number. -/
def Obligations.DefaultHeaderTail : Prop :=
  ∀ (cfg : Config) (i len : Nat), cfg.hdrTail = [] → 0 < cfg.chunk → i < 255 → len ≤ cfg.chunk →
    hdrTail cfg i (cfg.chunk * i) len =
      ⟨BitVec.ofNat 8 i, 0, if len = cfg.chunk then 1 else 0, 0⟩

/-- R8, R147: a configured HDR_TAIL decides: any function of `(i, sent, len)` on finitely many arguments is the HDR_TAIL
of some configuration, whatever the rest of it is. -/
def Obligations.HeaderTailIsAnyFunction : Prop :=
  ∀ (cfg : Config) (f : Nat → Nat → Nat → HdrTail) (args : List (Nat × Nat × Nat)),
    ∃ table : List TailEntry, ∀ a ∈ args,
      hdrTail { cfg with hdrTail := table } a.1 a.2.1 a.2.2 = f a.1 a.2.1 a.2.2

/-- R144, R150: the lengths of the plan sum to `F`, each is in `(0, C]`, each offset is the one before plus its length,
and `N ≤ 255`. -/
def Obligations.PlanTilesFrame : Prop :=
  ∀ (cfg : Config) (b : Fb), 0 < frameSize cfg b → frameSize cfg b ≤ 255 * cfg.chunk →
    ((List.range (planCount cfg b)).map (planLen cfg b)).sum = frameSize cfg b ∧
    (∀ i, i < planCount cfg b → 0 < planLen cfg b i ∧ planLen cfg b i ≤ cfg.chunk) ∧
    (∀ i, i + 1 < planCount cfg b → cfg.chunk * (i + 1) = cfg.chunk * i + planLen cfg b i) ∧
    planCount cfg b ≤ 255

/-- R150 law 6: the plan of the default configuration has 27 packets, 26 of 4096 bytes and a last one of 2304. -/
def Obligations.DefaultPlan : Prop :=
  ∀ b : Fb, frameSize Config.default b = 108800 ∧ planCount Config.default b = 27 ∧
    (∀ i, i < 26 → planLen Config.default b i = 4096) ∧ planLen Config.default b 26 = 2304

/-- R149, R151, R152, R173: the `Emit` of a redraw packet (PKT_START, PKT_CONT, PKT_END or PKT_SINGLE) uses one answer and
is recorded; at `ok` the next packet's `Emit` starts, or after the last the command returns OK; at `fail`
the command returns TRANSPORT_FAILURE with this packet's index. That a packet row's `exec` is the answered `Emit` is
the model's choice, log entry 7. -/
def Obligations.RedrawPacketAnswered : Prop :=
  ∀ (i : Instr) (p : Packet) (b : Fb) (rdI rdSent : Nat) (frame : List Byte) (s : State) (a : Answer)
    (as : List Answer) (seq : Byte) (tail : HdrTail) (data : List Byte),
    (i = .pktStart tail data ∧ p = .start tail data) ∨ (i = .pktCont seq tail data ∧ p = .cont seq tail data) ∨
      (i = .pktEnd seq tail data ∧ p = .last seq tail data) ∨ (i = .pktSingle tail data ∧ p = .single tail data) →
    s.engine = .emitting p (.redraw b rdI rdSent frame) → s.answers = a :: as →
    (a = .ok → rdI + 1 < planCount s.cfg b →
      exec i s = .next { s with
        answers := as, emits := s.emits ++ [⟨packetBytes s.cfg p, some .ok⟩]
        engine := .emitting (redrawPacket s.cfg b frame (rdI + 1) (rdSent + planLen s.cfg b rdI))
          (.redraw b (rdI + 1) (rdSent + planLen s.cfg b rdI) frame) }) ∧
    (a = .ok → planCount s.cfg b ≤ rdI + 1 →
      exec i s = .next { s with
        answers := as, emits := s.emits ++ [⟨packetBytes s.cfg p, some .ok⟩]
        engine := .idle, status := 0, response := some ⟨0, s.cursorX⟩ }) ∧
    (a = .fail → rdI ≤ 254 →
      exec i s = .next { s with
        answers := as, emits := s.emits ++ [⟨packetBytes s.cfg p, some .fail⟩]
        engine := .idle, status := BitVec.ofNat 32 (256 * rdI + 3)
        response := some ⟨BitVec.ofNat 32 (256 * rdI + 3), s.cursorX⟩ })

/-- R151, R196: while the sink does not answer, the engine's turn changes nothing, so it is no fault and no completion;
and no agent's turn but the host's reset takes the engine out of the `Emit`. -/
def Obligations.EmitWaitsForAnswer : Prop :=
  ∀ (s : State) (p : Packet) (job : Job), s.engine = .emitting p job → s.answers = [] →
    (∀ ts, EngineMoves s ts → step s = .next { s with turns := ts }) ∧
    ((∀ ts, s.turns ≠ .host .reset :: ts) →
      ∃ t, step s = .next t ∧ t.engine = .emitting p job ∧ t.emits = s.emits ∧ t.status = s.status ∧
        SameFramebuffers s t)

/-- R150 law 7, R149: when every `Emit` of a REDRAW answers ok, the `N` packets of its plan go out in order, their
payloads, each cut to its length, make up `FrameBytes(b)`, and the command returns OK with the framebuffers
and CURSOR_X unchanged. That each `Emit` is one step, and that the steps are the engine's where no turn is listed, are
the model's choices, log entries 7 and 3. -/
def Obligations.RedrawDeliversFrame : Prop :=
  ∀ (b : Fb) (s : State) (rest : List Answer) (frame : List Byte), configValid s.cfg = true → s.turns = [] →
    s.response = none → frameBytes s b = some frame →
    s.answers = List.replicate (planCount s.cfg b) .ok ++ rest →
    ∃ s1 t es, exec (.redraw b) s = .next s1 ∧ run (planCount s.cfg b) s1 = .next t ∧
      t.emits = s.emits ++ es ∧ es.length = planCount s.cfg b ∧
      (∀ e ∈ es, e.answer = some .ok ∧ e.bytes.length = 8 + s.cfg.chunk) ∧
      (∀ i e, es[i]? = some e → e.bytes = packetBytes s.cfg (redrawPacket s.cfg b frame i (s.cfg.chunk * i))) ∧
      (es.zipIdx.map fun e => payloadOf e.1 (planLen s.cfg b e.2)).flatten = frame ∧
      Returned s t 0 s.cursorX ∧ SameFramebuffers s t ∧ t.answers = rest

/-- R152, R173: at the first `fail`, on packet `k`, a REDRAW emits no further packet and returns TRANSPORT_FAILURE
with index `k`; the packets before it stay emitted, the framebuffers and CURSOR_X are unchanged. That each `Emit` is one
step, and that the steps are the engine's where no turn is listed, are the model's choices, log entries 7 and 3. -/
def Obligations.RedrawStopsAtFirstFailure : Prop :=
  ∀ (b : Fb) (s : State) (k : Nat) (rest : List Answer) (frame : List Byte), configValid s.cfg = true →
    s.turns = [] → s.response = none → frameBytes s b = some frame → k < planCount s.cfg b →
    s.answers = List.replicate k .ok ++ .fail :: rest →
    ∃ s1 t es, exec (.redraw b) s = .next s1 ∧ run (k + 1) s1 = .next t ∧
      t.emits = s.emits ++ es ∧ es.map EmitEvent.answer = List.replicate k (some .ok) ++ [some .fail] ∧
      (∀ i e, es[i]? = some e → e.bytes = packetBytes s.cfg (redrawPacket s.cfg b frame i (s.cfg.chunk * i))) ∧
      Returned s t (BitVec.ofNat 32 (256 * k + 3)) s.cursorX ∧ SameFramebuffers s t ∧ t.answers = rest

/-! ## Packets on the wire -/

/-- R70 to R73: decoding a packet's bytes gives the packet back, where the configuration keeps the control codes apart and
the packet is not a one-packet frame under SINGLE_CODE = START. That such a packet, which the wire does not tell from
the first of several, is read as START is the model's choice, log entry 12. -/
def Obligations.PacketDecodeEncode : Prop :=
  (∀ (cfg : Config) (p : Packet), p.wellFormed cfg = true →
    cfg.timeCode ≠ 0xF1 → cfg.heartbeatCode ≠ 0xF1 → cfg.timeCode ≠ cfg.heartbeatCode →
    (cfg.singleCode = .start → ∀ tail data, p ≠ .single tail data) →
    decodePacket cfg (packetBytes cfg p) = .ok p) ∧
  (∀ (cfg : Config) (tail : HdrTail) (data : List Byte), (Packet.single tail data).wellFormed cfg = true →
    cfg.singleCode = .start →
    decodePacket cfg (packetBytes cfg (.single tail data)) = .ok (.start tail data))

/-! ## Registers, reset, the whole machine -/

/-- R23, R170: the fields of the STATUS word that `finish` writes: CODE, FAIL_INDEX, and the reserved bits 0. -/
def Obligations.StatusWordFields : Prop :=
  ∀ (code : Code) (idx : Nat), idx ≤ 255 →
    (statusWord code idx).extractLsb' 0 4 =
      (match code with
        | .ok => 0#4
        | .illegalCommand => 1#4
        | .frameSizeInvalid => 2#4
        | .transportFailure => 3#4
        | .rotateGeometry => 4#4) ∧
    (statusWord code idx).extractLsb' 4 4 = 0#4 ∧ ((statusWord code idx).extractLsb' 8 8).toNat = idx ∧
    (statusWord code idx).extractLsb' 16 16 = 0#16

/-- R31: after reset every cell is unwritten, STATUS and CURSOR_X are 0, and the engine is idle, with no word taken and no
response waiting; the configuration, the glyph ROM in it, is the one the block was constructed with. That
`State.reset` is this state under the default configuration is the model's choice, log entry 1. -/
def Obligations.ResetLeaves : Prop :=
  State.reset = State.resetWith Config.default ∧
  ∀ cfg : Config, (∀ (b : Fb) (k : Nat), ((State.resetWith cfg).fb b).read k = none) ∧
    (State.resetWith cfg).status = 0 ∧ (State.resetWith cfg).cursorX = 0 ∧
    (State.resetWith cfg).engine = .idle ∧ (State.resetWith cfg).words = [] ∧
    (State.resetWith cfg).response = none ∧ (State.resetWith cfg).cfg = cfg

/-- R190: the host's reset, at any time, also in the middle of an `Emit`, leaves the values of R31, gives no response to
the command in progress, and leaves the configuration; what was emitted before stays emitted. That a response returned
and not yet taken is dropped too, and its command recorded nowhere, is the model's choice, log entry 9. -/
def Obligations.ResetAtAnyTime : Prop :=
  ∀ (s : State) (ts : List Turn), s.turns = .host .reset :: ts →
    ∃ t, step s = .next t ∧ (∀ (b : Fb) (k : Nat), (t.fb b).read k = none) ∧ t.status = 0 ∧ t.cursorX = 0 ∧
      t.engine = .idle ∧ t.words = [] ∧ t.response = none ∧ t.cfg = s.cfg ∧ t.completed = s.completed ∧
      s.emits <+: t.emits ∧ (s.engine = .idle → t.emits = s.emits)

/-- R5, R6, R7: construction accepts exactly the configurations in range whose frames have at least 1 and at most
`255·C` bytes, and starts them in the reset state. -/
def Obligations.ConstructionChecksFrameSize : Prop :=
  ∀ cfg : Config,
    ((1 ≤ cfg.chunk ∧ cfg.chunk ≤ 65535 ∧
      ∀ b : Fb, 1 ≤ cfg.width b ∧ cfg.width b ≤ 65535 ∧ 1 ≤ cfg.height b ∧ cfg.height b ≤ 65535 ∧
        0 < 2 * cfg.width b * cfg.height b ∧ 2 * cfg.width b * cfg.height b ≤ 255 * cfg.chunk) →
      construct cfg = some (State.resetWith cfg)) ∧
    ((¬ (1 ≤ cfg.chunk ∧ cfg.chunk ≤ 65535 ∧
      ∀ b : Fb, 1 ≤ cfg.width b ∧ cfg.width b ≤ 65535 ∧ 1 ≤ cfg.height b ∧ cfg.height b ≤ 65535 ∧
        0 < 2 * cfg.width b * cfg.height b ∧ 2 * cfg.width b * cfg.height b ≤ 255 * cfg.chunk)) →
      construct cfg = none)

/-- The invariant holds after reset, under every configuration that exists. -/
def Obligations.ResetMeetsInvariant : Prop :=
  State.reset.Inv ∧ ∀ cfg : Config, configValid cfg = true → (State.resetWith cfg).Inv

/-- Every step keeps the invariant: the canonical form of the framebuffers, legal STATUS values (R23), the REDRAW
counters (R29), the packet in `Emit` being packet RD_I of the plan (R149), packets of `8 + C` bytes (R70), and
records that hold those of the present run (R197). -/
def Obligations.StepKeepsInvariant : Prop :=
  ∀ s t : State, s.Inv → step s = .next t → t.Inv

/-- R26: no step changes the configuration. -/
def Obligations.StepKeepsConfig : Prop :=
  ∀ s t : State, step s = .next t → t.cfg = s.cfg

/-- R24: no instruction but DRAW_CHAR and DRAW_TEXT changes CURSOR_X. -/
def Obligations.OnlyTextMovesCursor : Prop :=
  ∀ (i : Instr) (s t : State), writesCursor i = false → exec i s = .next t → t.cursorX = s.cursorX

/-- R21, R140, R149: no protocol command and no `Emit` writes a framebuffer cell. -/
def Obligations.ProtocolWritesNoPixel : Prop :=
  ∀ (i : Instr) (s t : State), isRenderer i = false → exec i s = .next t → SameFramebuffers s t

/-- R100, R185: no instruction is refused, and the only fault is UnwrittenPixel, raised by REDRAW of a framebuffer with an
unwritten cell. The canonical form is a part of the invariant. -/
def Obligations.OnlyRedrawFaults : Prop :=
  ∀ (i : Instr) (s : State), (∀ b, (s.fb b).wf) →
    (∀ r, exec i s ≠ .refused r) ∧
    (∀ f, exec i s = .fault f → f = .unwrittenPixel ∧ ∃ b, i = .redraw b ∧ ¬ AllWritten s b)

/-- R151, R173, R197: a step adds at most one `Emit` event to the packet stream and takes none back, and so for the record of
completed commands; an ended run stays ended and shows the same; and after a reset a run shows nothing of what was
before. How the records are kept, and that a listed offer or reset leaves a run open, is the model's choice, log
entries 6 and 19. -/
def Obligations.PacketStreamOnlyGrows : Prop :=
  ∀ s t : State, step s = .next t →
    (t.emits = s.emits ∨ ∃ e, t.emits = s.emits ++ [e]) ∧
    (t.completed = s.completed ∨ ∃ c, t.completed = s.completed ++ [c]) ∧
    (RunEnded s → RunEnded t ∧ t.observation = s.observation) ∧
    (∀ ts, s.turns = .host .reset :: ts → t.observation.emits = [] ∧ t.observation.completed = [])

/-! ## The assembler -/

/-- R74: what the assembler accepts is a well-formed command, so its words decode to it. -/
def Obligations.AssembledCommandIsWellFormed : Prop :=
  ∀ (cfg : Config) (op : Opcode) (os : List Operand) (i : Instr), assembleCommand op os = some i →
    i.isCommand = true ∧ i.wellFormed cfg = true

/-- R74: for every command, the assembler accepts exactly the operands that are of the right kinds and fit their fields, and
what it accepts holds each of them at its exact value; and only the names `fb0` and `fb1` are framebuffers. -/
def Obligations.AssemblerRefusesMisfits : Prop :=
  (∀ (op : Opcode) (os : List Operand),
    (¬ operandsFit op os → assembleCommand op os = none) ∧
    (operandsFit op os → ∃ i, assembleCommand op os = some i ∧ assemblerOperands i = os ∧
      ∃ w ws, encodeCommand i = w :: ws ∧ opField w = op.code)) ∧
  (∀ (t : Token) (b : Fb), operandOf t = some (.fb b) ↔
    t = .name (match b with
      | .fb0 => ['f', 'b', '0']
      | .fb1 => ['f', 'b', '1']))

/-- R75: TIME_OR_HEARTBEAT is SET_TIME where `is_set_time` is not 0, and HEARTBEAT where it is, with the same operands. -/
def Obligations.TimeOrHeartbeatExpands : Prop :=
  ∀ (k : Int) (os : List Operand),
    (k ≠ 0 → assembleTimeOrHeartbeat (.num k :: os) = assembleCommand .setTime os) ∧
    (k = 0 → assembleTimeOrHeartbeat (.num k :: os) = assembleCommand .heartbeat os)
end

