-- ==== Sys2Proof/Laws/Decode.lean ====
section
/-!
SUPPORT. The fields of an encoded header word, the opcode table's own checks, and packing (R61 to R65).
-/

namespace Sys2Proof

/-- The bits of a header word (R61). -/
theorem header_getLsbD (op : Opcode) (a : BitVec 16) (d b : BitVec 1) (i : Nat) :
    (header op a d b).getLsbD i =
      if i < 8 then op.code.getLsbD i
      else if i < 9 then b.getLsbD (i - 8)
      else if i < 10 then d.getLsbD (i - 9)
      else if i < 16 then false
      else a.getLsbD (i - 16) := by
  show (a ++ 0#6 ++ d ++ b ++ op.code : BitVec (16 + 6 + 1 + 1 + 8)).getLsbD i = _
  simp only [BitVec.getLsbD_append, BitVec.getLsbD_zero]
  split_ifs <;> first | rfl | omega

@[simp] theorem opField_header (op : Opcode) (a : BitVec 16) (d b : BitVec 1) :
    opField (header op a d b) = op.code := by
  apply BitVec.eq_of_getLsbD_eq
  intro i hi
  simp [opField, header_getLsbD, hi]

@[simp] theorem bField_header (op : Opcode) (a : BitVec 16) (d b : BitVec 1) : bField (header op a d b) = b := by
  apply BitVec.eq_of_getLsbD_eq
  intro i hi
  obtain rfl : i = 0 := by omega
  simp only [bField, BitVec.getLsbD_extractLsb', header_getLsbD]
  simp

@[simp] theorem dField_header (op : Opcode) (a : BitVec 16) (d b : BitVec 1) : dField (header op a d b) = d := by
  apply BitVec.eq_of_getLsbD_eq
  intro i hi
  obtain rfl : i = 0 := by omega
  simp only [dField, BitVec.getLsbD_extractLsb', header_getLsbD]
  simp

@[simp] theorem aField_header (op : Opcode) (a : BitVec 16) (d b : BitVec 1) : aField (header op a d b) = a := by
  apply BitVec.eq_of_getLsbD_eq
  intro i hi
  simp [aField, header_getLsbD, hi, show ¬ (16 + i < 8) by omega, show ¬ (16 + i < 9) by omega,
    show ¬ (16 + i < 10) by omega]

@[simp] theorem aLow_header (op : Opcode) (hi lo : Byte) (d b : BitVec 1) :
    aLow (header op (hi ++ lo) d b) = lo := by
  apply BitVec.eq_of_getLsbD_eq
  intro i hlt
  simp only [aLow, BitVec.getLsbD_extractLsb', header_getLsbD, show ¬ (16 + i < 8) by omega,
    show ¬ (16 + i < 9) by omega, show ¬ (16 + i < 10) by omega, show ¬ (16 + i < 16) by omega, if_false,
    Nat.add_sub_cancel_left]
  show (decide (i < 8) && (hi ++ lo : BitVec (8 + 8)).getLsbD i) = _
  rw [BitVec.getLsbD_append, if_pos hlt]
  simp [hlt]

@[simp] theorem aHigh_header (op : Opcode) (hi lo : Byte) (d b : BitVec 1) :
    aHigh (header op (hi ++ lo) d b) = hi := by
  apply BitVec.eq_of_getLsbD_eq
  intro i hlt
  simp only [aHigh, BitVec.getLsbD_extractLsb', header_getLsbD, show ¬ (24 + i < 8) by omega,
    show ¬ (24 + i < 9) by omega, show ¬ (24 + i < 10) by omega, show ¬ (24 + i < 16) by omega, if_false]
  show (decide (i < 8) && (hi ++ lo : BitVec (8 + 8)).getLsbD (24 + i - 16)) = _
  rw [BitVec.getLsbD_append, if_neg (by omega)]
  simp [hlt, show 24 + i - 16 - 8 = i by omega]

@[simp] theorem lowHalf_colorPair (fg bg : Color) : lowHalf (colorPair fg bg) = fg := by
  apply BitVec.eq_of_getLsbD_eq
  intro i hi
  simp only [lowHalf, BitVec.getLsbD_extractLsb']
  show (decide (i < 16) && (bg ++ fg : BitVec (16 + 16)).getLsbD (0 + i)) = _
  rw [Nat.zero_add, BitVec.getLsbD_append, if_pos hi]
  simp [hi]

@[simp] theorem highHalf_colorPair (fg bg : Color) : highHalf (colorPair fg bg) = bg := by
  apply BitVec.eq_of_getLsbD_eq
  intro i hi
  simp only [highHalf, BitVec.getLsbD_extractLsb']
  show (decide (i < 16) && (bg ++ fg : BitVec (16 + 16)).getLsbD (16 + i)) = _
  rw [BitVec.getLsbD_append, if_neg (by omega)]
  simp [hi]

@[simp] theorem lowByte_setWidth (v : Byte) : lowByte (v.setWidth 32) = v := by
  apply BitVec.eq_of_getLsbD_eq
  intro i hi
  simp [lowByte, hi, show i < 32 by omega]

@[simp] theorem fbOfBit_bit (b : Fb) : fbOfBit b.bit = b := by
  cases b <;> decide

/-- Each opcode is found under its own code (R65). -/
@[simp] theorem Opcode.ofCode_code (op : Opcode) : Opcode.ofCode op.code = some op := by
  cases op <;> decide

/-- An OP value is defined exactly as the code of its opcode (R65). -/
theorem Opcode.ofCode_eq_some {v : Byte} {op : Opcode} : Opcode.ofCode v = some op ↔ v = op.code := by
  constructor
  · intro h
    have := List.find?_some h
    exact (beq_iff_eq.1 this).symm
  · rintro rfl
    exact Opcode.ofCode_code op

/-! ## The decoder, branch by branch -/

theorem decodeCommand_reserved {w0 : Word} (h : Opcode.ofCode (opField w0) = none) (ws : List Word) :
    decodeCommand (w0 :: ws) = .error .reservedOpcode := by
  rw [decodeCommand, h, decodeHeader]

theorem decodeCommand_defined {w0 : Word} {op : Opcode} (h : opField w0 = op.code) (ws : List Word) :
    decodeCommand (w0 :: ws) =
      if w0 &&& op.mask = op.pattern then decodeOperands op w0 ws else .error (.fixedField op) := by
  rw [decodeCommand, h, Opcode.ofCode_code, decodeHeader]

/-- A header word is decoded in one of three ways (R66 to R68). -/
theorem decodeCommand_cases (w0 : Word) (ws : List Word) :
    (Opcode.ofCode (opField w0) = none ∧ decodeCommand (w0 :: ws) = .error .reservedOpcode) ∨
    (∃ op, opField w0 = op.code ∧ w0 &&& op.mask ≠ op.pattern ∧
      decodeCommand (w0 :: ws) = .error (.fixedField op)) ∨
    (∃ op, opField w0 = op.code ∧ w0 &&& op.mask = op.pattern ∧
      decodeCommand (w0 :: ws) = decodeOperands op w0 ws) := by
  cases h : Opcode.ofCode (opField w0) with
  | none => exact .inl ⟨rfl, decodeCommand_reserved h ws⟩
  | some op =>
    have hop := Opcode.ofCode_eq_some.1 h
    by_cases hm : w0 &&& op.mask = op.pattern
    · exact .inr (.inr ⟨op, hop, hm, by rw [decodeCommand_defined hop, if_pos hm]⟩)
    · exact .inr (.inl ⟨op, hop, hm, by rw [decodeCommand_defined hop, if_neg hm]⟩)

/-- The operand decoder accepts a command of its opcode, or finds the wrong number of words. -/
theorem decodeOperands_cases (op : Opcode) (w0 : Word) (ws : List Word) :
    (∃ op', decodeOperands op w0 ws = .error (.wrongLength op')) ∨
    ∃ i, decodeOperands op w0 ws = .ok i ∧ i.isCommand = true ∧ ∀ cfg, i.wellFormed cfg = true := by
  cases op
  case drawText =>
    simp only [decodeOperands]
    unfold operandsText
    split
    · split
      · refine .inr ⟨_, rfl, rfl, fun cfg => decide_eq_true ?_⟩
        rw [List.length_take]
        have := (aLow w0).isLt
        omega
      · exact .inl ⟨_, rfl⟩
    · exact .inl ⟨_, rfl⟩
  all_goals
    simp only [decodeOperands]
    first
      | unfold operands0
      | unfold operands1
      | unfold operands2
      | unfold operands3
      | unfold operands4
      | unfold operands6
    split
    · exact .inr ⟨_, rfl, rfl, fun _ => rfl⟩
    · exact .inl ⟨_, rfl⟩

/-- The opcode table is unambiguous: no word matches two of its rows (R65). -/
theorem Opcode.table_no_overlap :
    Opcode.all.Pairwise fun p q => (p.pattern ^^^ q.pattern) &&& p.mask &&& q.mask ≠ 0 := by
  decide

/-- A header word with `D = 0` and `B` free has its fixed bits right, where only RSV and D are fixed (R65). -/
theorem header_fixed_renderer {op : Opcode} (h : op.mask = 0x0000FEFF#32) (a : BitVec 16) (b : BitVec 1) :
    header op a 0 b &&& op.mask = op.pattern := by
  rw [h]
  apply BitVec.eq_of_getLsbD_eq
  intro i hi
  simp only [BitVec.getLsbD_and, header_getLsbD, Opcode.pattern, BitVec.getLsbD_setWidth]
  interval_cases i <;> simp

/-- A header word with `B = D = 0` has its fixed bits right in SET_TIME and HEARTBEAT (R65). -/
theorem header_fixed_time {op : Opcode} (h : op.mask = 0x0000FFFF#32) (a : BitVec 16) :
    header op a 0 0 &&& op.mask = op.pattern := by
  rw [h]
  apply BitVec.eq_of_getLsbD_eq
  intro i hi
  simp only [BitVec.getLsbD_and, header_getLsbD, Opcode.pattern, BitVec.getLsbD_setWidth]
  interval_cases i <;> simp

/-- A header word with `A[15:8] = B = D = 0` has its fixed bits right in SET_ORIENTATION (R65). -/
theorem header_fixed_orientation (mode : Byte) :
    header .setOrientation ((0 : Byte) ++ mode) 0 0 &&& Opcode.setOrientation.mask =
      Opcode.setOrientation.pattern := by
  apply BitVec.eq_of_getLsbD_eq
  intro i hi
  have ha : ∀ j, ((0 : Byte) ++ mode : BitVec 16).getLsbD j = if j < 8 then mode.getLsbD j else false := by
    intro j
    show ((0 : Byte) ++ mode : BitVec (8 + 8)).getLsbD j = _
    rw [BitVec.getLsbD_append]
    split_ifs <;> simp
  simp only [BitVec.getLsbD_and, header_getLsbD, Opcode.pattern, BitVec.getLsbD_setWidth, ha, Opcode.mask,
    Opcode.code]
  interval_cases i <;> simp

/-- The four bytes of a packed word, least significant first (R63). -/
@[simp] theorem wordBytes_wordOfBytes (a b c d : Byte) : wordBytes (wordOfBytes a b c d) = [a, b, c, d] := by
  have h : ∀ j, (wordOfBytes a b c d).getLsbD j =
      if j < 8 then a.getLsbD j else if j < 16 then b.getLsbD (j - 8)
      else if j < 24 then c.getLsbD (j - 16) else d.getLsbD (j - 24) := by
    intro j
    show (d ++ c ++ b ++ a : BitVec (8 + 8 + 8 + 8)).getLsbD j = _
    simp only [BitVec.getLsbD_append]
    split_ifs <;> first | rfl | omega
  unfold wordBytes
  congr 1
  · apply BitVec.eq_of_getLsbD_eq
    intro i hi
    simp [h, hi]
  congr 1
  · apply BitVec.eq_of_getLsbD_eq
    intro i hi
    simp [h, hi, show 8 + i < 16 by omega]
  congr 1
  · apply BitVec.eq_of_getLsbD_eq
    intro i hi
    simp [h, hi, show ¬ (16 + i < 8) by omega, show 16 + i < 24 by omega]
  congr 1
  · apply BitVec.eq_of_getLsbD_eq
    intro i hi
    simp [h, hi, show ¬ (24 + i < 8) by omega, show ¬ (24 + i < 16) by omega]

/-- A string fills `ceil(n/4)` words (R63). -/
theorem packChars_length (text : List Byte) : (packChars text).length = charWords text.length := by
  unfold charWords
  fun_induction packChars text with
  | case5 a b c d rest ih =>
    simp only [List.length_cons] at ih ⊢
    omega
  | _ => simp

/-- A string's characters come back from its words (R63). -/
theorem unpackChars_packChars (text : List Byte) : (unpackChars (packChars text)).take text.length = text := by
  fun_induction packChars text with
  | case1 => rfl
  | case2 a => simp [unpackChars]
  | case3 a b => simp [unpackChars]
  | case4 a b c => simp [unpackChars]
  | case5 a b c d rest ih =>
    simp only [unpackChars, List.flatMap_cons, wordBytes_wordOfBytes, List.length_cons, List.cons_append,
      List.nil_append, List.take_succ_cons] at ih ⊢
    rw [ih]

/-- A whole command at the head of a stream is split off there (R60, R64). -/
theorem splitCommand_append {w0 : Word} {ws : List Word} (h : commandLength w0 = (w0 :: ws).length)
    (rest : List Word) : splitCommand (w0 :: ws ++ rest) = some (w0 :: ws, rest) := by
  rw [List.cons_append, splitCommand, ← List.cons_append, h, if_pos (by simp), List.take_left, List.drop_left]

/-- Decoding a packet of eight header bytes and a data region of `C` bytes (R70, R71). -/
theorem decodePacket_header (cfg : Config) (b0 b1 b2 b3 b4 b5 b6 b7 : Byte) {data : List Byte}
    (h : data.length = cfg.chunk) :
    decodePacket cfg ([b0, b1, b2, b3, b4, b5, b6, b7] ++ data) =
      if b0 ≠ sig then .error .packetKind
      else if b1 = classCtrl then decodeControl cfg b2 b3 b4 b5 b6 b7 data
      else if b1 = classRedraw then decodeRedraw cfg b2 b3 ⟨b4, b5, b6, b7⟩ data
      else .error .packetKind := by
  have hl : ([b0, b1, b2, b3, b4, b5, b6, b7] ++ data).length = 8 + cfg.chunk := by
    rw [List.length_append, h]
    rfl
  unfold decodePacket
  rw [if_neg (not_not.2 hl)]
  rfl

/-- A control packet's bytes are decoded by its code and argument bytes (R71, R140). -/
theorem decodePacket_control (cfg : Config) (code a3 a4 a5 : Byte) :
    decodePacket cfg (controlBytes cfg code a3 a4 a5) = decodeControl cfg code a3 a4 a5 0 0 (zeroData cfg) := by
  unfold controlBytes
  rw [decodePacket_header cfg _ _ _ _ _ _ _ _ (by simp [zeroData]), if_neg (not_not.2 rfl), if_pos rfl]

/-- A redraw packet's bytes are decoded by its code and sequence number (R71, R149). -/
theorem decodePacket_redraw {cfg : Config} {data : List Byte} (h : data.length = cfg.chunk) (code seq : Byte)
    (t : HdrTail) : decodePacket cfg (redrawBytes code seq t data) = decodeRedraw cfg code seq t data := by
  unfold redrawBytes
  rw [decodePacket_header cfg _ _ _ _ _ _ _ _ h, if_neg (not_not.2 rfl), if_neg (by decide), if_pos rfl]

end Sys2Proof
end

