-- ==== Sys2Proof/Laws/Memory.lean ====
section
/-!
SUPPORT. What reading, writing and walking a framebuffer's cells do, and that every operation on
them keeps the canonical form.
-/

namespace Sys2Proof.Machine

/-- Read after write: the written cell holds the color, every other cell is as before. -/
@[simp] theorem Memory.read_write (m : Memory) (k j : Nat) (c : Color) :
    (m.write k c).read j = if j = k then some c else m.read j := by
  induction m with
  | nil => simp only [Memory.write, Memory.read]
  | cons p m ih =>
    obtain ⟨a, d⟩ := p
    simp only [Memory.write]
    split_ifs <;> simp only [Memory.read] <;> (try rw [ih]) <;> split_ifs <;> first | rfl | omega

theorem Memory.read_eq_none_of_lt {m : Memory} {k : Nat} (h : ∀ p ∈ m, k < p.1) : m.read k = none := by
  induction m with
  | nil => rfl
  | cons p m ih =>
    have hp := h p (by simp)
    rw [Memory.read, if_neg (by omega), ih fun q hq => h q (by simp [hq])]

theorem Memory.mem_write {m : Memory} {k : Nat} {c : Color} {p : Nat × Color} (h : p ∈ m.write k c) :
    p = (k, c) ∨ p ∈ m := by
  induction m with
  | nil => simpa [Memory.write] using h
  | cons q m ih =>
    obtain ⟨a, d⟩ := q
    simp only [Memory.write] at h
    split_ifs at h
    · simpa using h
    · simp only [List.mem_cons] at h ⊢
      tauto
    · simp only [List.mem_cons] at h ⊢
      rcases h with h | h
      · tauto
      · have := ih h
        tauto

/-- Writing a cell keeps the canonical form. -/
theorem Memory.wf_write {m : Memory} (h : m.wf) (k : Nat) (c : Color) : (m.write k c).wf := by
  induction m with
  | nil => simp [Memory.wf, Memory.write]
  | cons q m ih =>
    obtain ⟨a, d⟩ := q
    have ⟨hq, hm⟩ := List.pairwise_cons.1 h
    simp only [Memory.write]
    split_ifs with h1 h2
    · refine List.pairwise_cons.2 ⟨fun p hp => ?_, h⟩
      rcases List.mem_cons.1 hp with rfl | hp
      · exact h1
      · exact lt_trans h1 (hq p hp)
    · subst h2
      exact List.pairwise_cons.2 ⟨hq, hm⟩
    · refine List.pairwise_cons.2 ⟨fun p hp => ?_, ih hm⟩
      rcases Memory.mem_write hp with rfl | hp
      · show a < k
        omega
      · exact hq p hp

theorem Memory.within_write {m : Memory} {n : Nat} (h : m.within n) {k : Nat} (hk : k < n) (c : Color) :
    (m.write k c).within n := by
  intro p hp
  rcases Memory.mem_write hp with rfl | hp
  · exact hk
  · exact h p hp

/-- Nothing is listed outside the framebuffer, so a read there gives none. -/
theorem Memory.read_of_within {m : Memory} {n k : Nat} (h : m.within n) (hk : n ≤ k) : m.read k = none := by
  induction m with
  | nil => rfl
  | cons p m ih =>
    have hp := h p (by simp)
    rw [Memory.read, if_neg (by omega), ih fun q hq => h q (by simp [hq])]

/-- Two canonical memories that read alike are the same list. -/
theorem Memory.ext_of_read {m m' : Memory} (h : m.wf) (h' : m'.wf) (hr : ∀ k, m.read k = m'.read k) : m = m' := by
  induction m generalizing m' with
  | nil =>
    cases m' with
    | nil => rfl
    | cons q m' =>
      have := hr q.1
      simp [Memory.read] at this
  | cons p m ih =>
    obtain ⟨a, c⟩ := p
    have ⟨hp, hm⟩ := List.pairwise_cons.1 h
    cases m' with
    | nil =>
      have := hr a
      simp [Memory.read] at this
    | cons q m' =>
      obtain ⟨b, d⟩ := q
      have ⟨hq, hm'⟩ := List.pairwise_cons.1 h'
      have key : ∀ k, (if k = a then some c else Memory.read m k) = if k = b then some d else Memory.read m' k := hr
      have hab : a = b := by
        rcases lt_trichotomy a b with hlt | heq | hgt
        · have h1 := key a
          have : Memory.read m' a = none := Memory.read_eq_none_of_lt fun q hq' => lt_trans hlt (hq q hq')
          simp [hlt.ne, this] at h1
        · exact heq
        · have h1 := key b
          have : Memory.read m b = none := Memory.read_eq_none_of_lt fun q hq' => lt_trans hgt (hp q hq')
          simp [hgt.ne, this] at h1
      subst hab
      have hcd : c = d := by simpa using key a
      subst hcd
      congr 1
      refine ih hm hm' fun k => ?_
      by_cases hk : k = a
      · subst hk
        rw [Memory.read_eq_none_of_lt fun q hq' => hp q hq', Memory.read_eq_none_of_lt fun q hq' => hq q hq']
      · have := key k
        rwa [if_neg hk, if_neg hk] at this

/-- The walk of a canonical memory gives each cell as a read of it does (R43). -/
theorem Memory.cellsFrom_eq {m : Memory} (h : m.wf) {k : Nat} (hk : ∀ p ∈ m, k ≤ p.1) (n : Nat) :
    Memory.cellsFrom k n m = (List.range' k n).map m.read := by
  induction n generalizing k m with
  | zero => simp [Memory.cellsFrom]
  | succ n ih =>
    cases m with
    | nil =>
      rw [Memory.cellsFrom, ih h (by simp), List.range'_succ]
      rfl
    | cons p m =>
      obtain ⟨a, c⟩ := p
      have ⟨hp, hm⟩ := List.pairwise_cons.1 h
      have ha := hk (a, c) (by simp)
      simp only at ha hp
      simp only [Memory.cellsFrom, List.range'_succ, List.map_cons]
      split_ifs with hak
      · subst hak
        rw [ih hm fun p' hp' => hp p' hp']
        congr 1
        · simp [Memory.read]
        · refine List.map_congr_left fun j hj => ?_
          have := (List.mem_range'_1.1 hj).1
          rw [Memory.read, if_neg (by omega)]
      · rw [ih h]
        · congr 1
          rw [Memory.read, if_neg (by omega)]
          exact (Memory.read_eq_none_of_lt fun q hq => by have := hp q hq; omega).symm
        · intro q hq
          rcases List.mem_cons.1 hq with rfl | hq
          · simp only; omega
          · have := hp q hq; omega

/-- The cells of a framebuffer in row-major order, each as a read of it gives it. -/
theorem Memory.cells_eq {m : Memory} (h : m.wf) (n : Nat) :
    Memory.cellsFrom 0 n m = (List.range n).map m.read := by
  rw [Memory.cellsFrom_eq h (fun _ _ => Nat.zero_le _), List.range_eq_range']

/-- Different cells of a framebuffer have different linear indexes (R43). -/
theorem cellIndex_inj {wd x y x' y' : Nat} (hx : x < wd) (hx' : x' < wd) :
    cellIndex wd x y = cellIndex wd x' y' ↔ x = x' ∧ y = y' := by
  constructor
  · intro h
    have h : y * wd + x = y' * wd + x' := h
    have h1 := congrArg (· % wd) h
    have h2 := congrArg (· / wd) h
    simp only [Nat.mul_comm _ wd, Nat.mul_add_mod, Nat.mod_eq_of_lt hx, Nat.mod_eq_of_lt hx'] at h1
    refine ⟨h1, ?_⟩
    simp only [Nat.mul_comm _ wd, Nat.mul_add_div (by omega : 0 < wd), Nat.div_eq_of_lt hx,
      Nat.div_eq_of_lt hx'] at h2
    omega
  · rintro ⟨rfl, rfl⟩
    rfl

theorem cellIndex_lt {wd ht x y : Nat} (hx : x < wd) (hy : y < ht) : cellIndex wd x y < wd * ht := by
  unfold cellIndex
  calc y * wd + x < y * wd + wd := by omega
    _ = (y + 1) * wd := by ring
    _ ≤ ht * wd := Nat.mul_le_mul_right _ hy
    _ = wd * ht := Nat.mul_comm _ _

/-- Every linear index of a framebuffer is a cell's (R43). -/
theorem exists_cellIndex {wd ht k : Nat} (h : k < wd * ht) :
    ∃ x y, x < wd ∧ y < ht ∧ k = cellIndex wd x y := by
  have hwd : 0 < wd := by
    rcases Nat.eq_zero_or_pos wd with rfl | h'
    · simp at h
    · exact h'
  refine ⟨k % wd, k / wd, Nat.mod_lt _ hwd, Nat.div_lt_of_lt_mul h, ?_⟩
  unfold cellIndex
  rw [Nat.mul_comm, Nat.div_add_mod]

end Sys2Proof.Machine
end

