-- ==== Sys2Proof/Laws/Draw.lean ====
section
/-!
SUPPORT. What each drawing operation does, said once: `Paints` names the color of every cell it writes and says
that everything else is as before; and what a rotation copies.
-/

namespace Sys2Proof.Machine

/-- `m'` is `m` painted with `f`: a cell where `f` gives a color holds it, every other cell is as before, nothing
outside the framebuffer changes, and the canonical form is kept. -/
structure Paints (wd ht : Nat) (m m' : Memory) (f : Int → Int → Option Color) : Prop where
  cell   : ∀ px py : Nat, px < wd → py < ht → m'.cell wd px py = (f px py).or (m.cell wd px py)
  beyond : ∀ k, wd * ht ≤ k → m'.read k = m.read k
  wf     : m.wf → m'.wf
  within : m.within (wd * ht) → m'.within (wd * ht)

variable {wd ht : Nat} {m m' m'' : Memory}

theorem Paints.refl (wd ht : Nat) (m : Memory) : Paints wd ht m m fun _ _ => none :=
  ⟨fun _ _ _ _ => rfl, fun _ _ => rfl, id, id⟩

/-- A later painting wins (R50). -/
theorem Paints.trans {f g : Int → Int → Option Color} (h : Paints wd ht m m' f) (h' : Paints wd ht m' m'' g) :
    Paints wd ht m m'' fun px py => (g px py).or (f px py) where
  cell px py hx hy := by rw [h'.cell px py hx hy, h.cell px py hx hy, Option.or_assoc]
  beyond k hk := (h'.beyond k hk).trans (h.beyond k hk)
  wf hm := h'.wf (h.wf hm)
  within hm := h'.within (h.within hm)

/-- Only the cells that exist count. -/
theorem Paints.congr {f g : Int → Int → Option Color} (h : Paints wd ht m m' f)
    (hfg : ∀ px py : Nat, px < wd → py < ht → f px py = g px py) : Paints wd ht m m' g :=
  ⟨fun px py hx hy => by rw [h.cell px py hx hy, hfg px py hx hy], h.beyond, h.wf, h.within⟩

/-- A loop of paintings paints `G`, if each painting agrees with `G` and together they give all of it. -/
theorem Paints.foldl {α : Type} (step : Memory → α → Memory) (F : α → Int → Int → Option Color)
    (hstep : ∀ m a, Paints wd ht m (step m a) (F a)) (l : List α) (m : Memory) (G : Int → Int → Option Color)
    (hsound : ∀ a ∈ l, ∀ px py : Nat, px < wd → py < ht → ∀ c, F a px py = some c → G px py = some c)
    (hcover : ∀ px py : Nat, px < wd → py < ht → ∀ c, G px py = some c → ∃ a ∈ l, F a px py = some c) :
    Paints wd ht m (l.foldl step m) G := by
  induction l generalizing m G with
  | nil =>
    refine (Paints.refl wd ht m).congr fun px py hx hy => ?_
    cases hG : G px py with
    | none => rfl
    | some c => simpa using hcover px py hx hy c hG
  | cons a l ih =>
    classical
    have hrest := ih (step m a) (fun px py => if ∃ b ∈ l, (F b px py).isSome then G px py else none)
      (fun b hb px py hx hy c hc => by
        have : ∃ b ∈ l, (F b (px : Int) (py : Int)).isSome := ⟨b, hb, by simp [hc]⟩
        rw [if_pos this]
        exact hsound b (by simp [hb]) px py hx hy c hc)
      (fun px py hx hy c hc => by
        split_ifs at hc with hex
        obtain ⟨b, hb, hs⟩ := hex
        obtain ⟨d, hd⟩ := Option.isSome_iff_exists.1 hs
        have := hsound b (by simp [hb]) px py hx hy d hd
        exact ⟨b, hb, by rw [hd, ← this, hc]⟩)
    refine ((hstep m a).trans hrest).congr fun px py hx hy => ?_
    cases hG : G px py with
    | none =>
      have hF : ∀ b ∈ a :: l, F b px py = none := by
        intro b hb
        cases hFb : F b px py with
        | none => rfl
        | some c => rw [hsound b hb px py hx hy c hFb] at hG; cases hG
      simp [hF a (by simp)]
    | some c =>
      by_cases hex : ∃ b ∈ l, (F b (px : Int) (py : Int)).isSome
      · rw [if_pos hex]
        rfl
      · obtain ⟨b, hb, hFb⟩ := hcover px py hx hy c hG
        rcases List.mem_cons.1 hb with rfl | hb
        · rw [if_neg hex, hFb]
          rfl
        · exact absurd ⟨b, hb, by simp [hFb]⟩ hex

/-! ## The primitives -/

/-- PutPixel writes the one cell `(x, y)`, if it exists (R41). -/
theorem putPixel_paints (wd ht : Nat) (m : Memory) (x y : Int) (c : Color) :
    Paints wd ht m (putPixel wd ht m x y c) fun px py => if px = x ∧ py = y then some c else none := by
  unfold putPixel
  split_ifs with h
  · obtain ⟨hx0, hx, hy0, hy⟩ := h
    have hxn : x.toNat < wd := by omega
    have hyn : y.toNat < ht := by omega
    refine ⟨fun px py hpx hpy => ?_, fun k hk => ?_, fun hm => Memory.wf_write hm _ _,
      fun hm => Memory.within_write hm (cellIndex_lt hxn hyn) _⟩
    · unfold Memory.cell
      rw [Memory.read_write]
      by_cases hp : (px : Int) = x ∧ (py : Int) = y
      · rw [if_pos ((cellIndex_inj hpx hxn).2 (by omega)), if_pos hp]
        rfl
      · rw [if_neg fun he => hp (by have := (cellIndex_inj hpx hxn).1 he; omega), if_neg hp]
        rfl
    · have := cellIndex_lt hxn hyn
      rw [Memory.read_write, if_neg (by omega)]
  · refine (Paints.refl wd ht m).congr fun px py hpx hpy => ?_
    rw [if_neg]
    omega

/-- The clipped range holds the columns (or rows) of `[start, start + len)` that exist. -/
@[simp] theorem mem_clipSpan (start len : Int) (limit k : Nat) :
    k ∈ clipSpan start len limit ↔ start ≤ k ∧ (k : Int) < start + len ∧ k < limit := by
  unfold clipSpan
  rw [List.mem_range'_1]
  omega

/-- FillRect paints `[x, x+w) × [y, y+h)` (R106). -/
theorem fillRect_paints (wd ht : Nat) (m : Memory) (x y w h : Int) (c : Color) :
    Paints wd ht m (fillRect wd ht m x y w h c)
      fun px py => if x ≤ px ∧ px < x + w ∧ y ≤ py ∧ py < y + h then some c else none := by
  unfold fillRect
  split_ifs with hwh
  · refine (Paints.refl wd ht m).congr fun px py _ _ => ?_
    rw [if_neg]
    omega
  · have hrow : ∀ (m : Memory) (yy : Nat),
        Paints wd ht m ((clipSpan x w wd).foldl (fun m (xx : Nat) => putPixel wd ht m xx yy c) m)
          fun px py => if x ≤ px ∧ px < x + w ∧ py = yy then some c else none := by
      intro m yy
      refine Paints.foldl _ (fun (xx : Nat) px py => if px = xx ∧ py = yy then some c else none)
        (fun m xx => putPixel_paints wd ht m xx yy c) _ m _ ?_ ?_
      · intro xx hxx px py _ _ d hd
        rw [mem_clipSpan] at hxx
        split_ifs at hd with hp
        rw [if_pos (by omega)]
        exact hd
      · intro px py hpx _ d hd
        split_ifs at hd with hp
        exact ⟨px, (mem_clipSpan _ _ _ _).2 (by omega), by rw [if_pos ⟨rfl, hp.2.2⟩]; exact hd⟩
    refine Paints.foldl _ (fun (yy : Nat) px py => if x ≤ px ∧ px < x + w ∧ py = yy then some c else none)
      hrow _ m _ ?_ ?_
    · intro yy hyy px py _ _ d hd
      rw [mem_clipSpan] at hyy
      split_ifs at hd with hp
      rw [if_pos (by omega)]
      exact hd
    · intro px py _ hpy d hd
      split_ifs at hd with hp
      exact ⟨py, (mem_clipSpan _ _ _ _).2 (by omega), by rw [if_pos ⟨hp.1, hp.2.1, rfl⟩]; exact hd⟩

/-! ## CLEAR -/

theorem Memory.read_map_range' (k n : Nat) (f : Nat → Color) (j : Nat) :
    Memory.read ((List.range' k n).map fun i => (i, f i)) j = if k ≤ j ∧ j < k + n then some (f j) else none := by
  induction n generalizing k with
  | zero =>
    rw [if_neg (by omega)]
    rfl
  | succ n ih =>
    rw [List.range'_succ, List.map_cons, Memory.read, ih]
    by_cases h : j = k
    · subst h
      rw [if_pos rfl, if_pos (by omega)]
    · rw [if_neg h]
      by_cases h' : k ≤ j ∧ j < k + (n + 1)
      · rw [if_pos h', if_pos (by omega)]
      · rw [if_neg h', if_neg (by omega)]

/-- After CLEAR exactly the cells that exist are written, each with the color (R101). -/
@[simp] theorem clearCells_read (wd ht : Nat) (c : Color) (k : Nat) :
    (clearCells wd ht c).read k = if k < wd * ht then some c else none := by
  unfold clearCells
  rw [List.range_eq_range', Memory.read_map_range' 0 (wd * ht) fun _ => c]
  simp

theorem clearCells_wf (wd ht : Nat) (c : Color) : (clearCells wd ht c).wf := by
  unfold Memory.wf clearCells
  rw [List.pairwise_map]
  exact List.pairwise_lt_range

theorem clearCells_within (wd ht : Nat) (c : Color) : (clearCells wd ht c).within (wd * ht) := by
  intro p hp
  obtain ⟨k, hk, rfl⟩ := List.mem_map.1 hp
  exact List.mem_range.1 hk

/-- CLEAR's cells are what R101's loop of PutPixel leaves. -/
theorem clearCells_eq_fillRect {wd ht : Nat} {m : Memory} (hm : m.wf) (hn : m.within (wd * ht)) (c : Color) :
    clearCells wd ht c = fillRect wd ht m 0 0 wd ht c := by
  have hp := fillRect_paints wd ht m 0 0 wd ht c
  refine Memory.ext_of_read (clearCells_wf wd ht c) (hp.wf hm) fun k => ?_
  rw [clearCells_read]
  split_ifs with hk
  · obtain ⟨x, y, hx, hy, rfl⟩ := exists_cellIndex hk
    have := hp.cell x y hx hy
    unfold Memory.cell at this
    rw [this, if_pos (by omega)]
    rfl
  · exact (Memory.read_of_within (hp.within hn) (by omega)).symm

/-! ## Glyphs and text -/

/-- Columns past the fifth have no set bit: the spacing column is background (R103). -/
theorem glyphBit_of_le {g : Glyph} {c : Nat} (h : 5 ≤ c) (r : Nat) : glyphBit g c r = false := by
  unfold glyphBit
  match c, h with
  | n + 5, _ => simp [glyphColumn]

/-- The block of size `s` that a coordinate lies in. -/
theorem exists_block {a s : Int} {n : Nat} (h0 : 0 ≤ a) (h1 : a < n * s) :
    ∃ c : Nat, c < n ∧ c * s ≤ a ∧ a < c * s + s ∧ (a / s).toNat = c := by
  have hs : 0 < s := by
    by_contra hs
    have : (n : Int) * s ≤ 0 := mul_nonpos_of_nonneg_of_nonpos (by omega) (by omega)
    omega
  have hq : 0 ≤ a / s := Int.ediv_nonneg h0 hs.le
  have hcast : ((a / s).toNat : Int) = a / s := Int.toNat_of_nonneg hq
  have hlt : a / s < n := Int.ediv_lt_of_lt_mul hs h1
  refine ⟨(a / s).toNat, by omega, ?_, ?_, rfl⟩
  · rw [hcast]
    exact Int.ediv_mul_le a hs.ne'
  · rw [hcast]
    have := Int.lt_ediv_add_one_mul_self a hs
    linarith [add_mul (a / s) 1 s]

/-- A coordinate of block `c` has quotient `c`. -/
theorem toNat_ediv_eq {a s : Int} {c : Nat} (h1 : c * s ≤ a) (h2 : a < c * s + s) : (a / s).toNat = c := by
  have hs : 0 < s := by omega
  have : a / s = c := by
    rw [Int.ediv_eq_iff_of_pos hs]
    exact ⟨by linarith, by linarith⟩
  omega

/-- Block `c` of `n` blocks of size `s` lies within all of them. -/
theorem block_le {s : Int} {c n : Nat} (hs : 0 ≤ s) (hc : c < n) : (c : Int) * s + s ≤ n * s := by
  have : ((c : Int) + 1) * s ≤ n * s := mul_le_mul_of_nonneg_right (by omega) hs
  linarith

/-- One glyph column, drawn as its seven blocks (R103). -/
theorem glyphColumn_paints (wd ht : Nat) (m : Memory) (x y : Int) (g : Glyph) {scale : Int} (hs : 0 ≤ scale)
    (fg bg : Color) (c : Nat) :
    Paints wd ht m ((List.range 7).foldl (fun m (r : Nat) =>
        fillRect wd ht m (x + c * scale) (y + r * scale) scale scale (if glyphBit g c r then fg else bg)) m)
      fun px py => if x + c * scale ≤ px ∧ px < x + c * scale + scale ∧ y ≤ py ∧ py < y + 7 * scale then
        some (if glyphBit g c ((py - y) / scale).toNat then fg else bg) else none := by
  refine Paints.foldl _ _ (fun m (r : Nat) => fillRect_paints wd ht m (x + c * scale) (y + r * scale) scale scale
    (if glyphBit g c r then fg else bg)) _ m _ ?_ ?_
  · intro r hr px py _ _ d hd
    obtain ⟨hp, hd⟩ := Option.ite_none_right_eq_some.1 hd
    have h7 := block_le hs (List.mem_range.1 hr)
    have h0 : 0 ≤ (r : Int) * scale := mul_nonneg (by omega) hs
    push_cast at h7
    rw [if_pos ⟨hp.1, hp.2.1, by linarith, by linarith⟩,
      toNat_ediv_eq (c := r) (by linarith) (by linarith)]
    exact hd
  · intro px py _ _ d hd
    obtain ⟨hp, hd⟩ := Option.ite_none_right_eq_some.1 hd
    obtain ⟨r, hr, hle, hlt, hq⟩ := exists_block (a := py - y) (s := scale) (n := 7) (by omega)
      (by push_cast; linarith)
    refine ⟨r, List.mem_range.2 hr, ?_⟩
    rw [if_pos ⟨hp.1, hp.2.1, by linarith, by linarith⟩, ← hq]
    exact hd

/-- DrawCell paints the whole `6·scale × 7·scale` cell with `fg` and `bg` (R103). -/
theorem drawCell_paints (wd ht : Nat) (m : Memory) (x y : Int) (g : Glyph) {scale : Int} (hs : 0 ≤ scale)
    (fg bg : Color) :
    Paints wd ht m (drawCell wd ht m x y g scale fg bg) (cellPaint g x y scale fg bg) := by
  have hglyph : Paints wd ht m ((List.range 5).foldl (fun m (c : Nat) => (List.range 7).foldl (fun m (r : Nat) =>
      fillRect wd ht m (x + c * scale) (y + r * scale) scale scale (if glyphBit g c r then fg else bg)) m) m)
      fun px py => if x ≤ px ∧ px < x + 5 * scale ∧ y ≤ py ∧ py < y + 7 * scale then
        some (if glyphBit g ((px - x) / scale).toNat ((py - y) / scale).toNat then fg else bg) else none := by
    refine Paints.foldl _ _ (fun m (c : Nat) => glyphColumn_paints wd ht m x y g hs fg bg c) _ m _ ?_ ?_
    · intro c hc px py _ _ d hd
      obtain ⟨hp, hd⟩ := Option.ite_none_right_eq_some.1 hd
      have h5 := block_le hs (List.mem_range.1 hc)
      have h0 : 0 ≤ (c : Int) * scale := mul_nonneg (by omega) hs
      push_cast at h5
      rw [if_pos ⟨by linarith, by linarith, hp.2.2⟩, toNat_ediv_eq (c := c) (by linarith) (by linarith)]
      exact hd
    · intro px py _ _ d hd
      obtain ⟨hp, hd⟩ := Option.ite_none_right_eq_some.1 hd
      obtain ⟨c, hc, hle, hlt, hq⟩ := exists_block (a := px - x) (s := scale) (n := 5) (by omega)
        (by push_cast; linarith)
      refine ⟨c, List.mem_range.2 hc, ?_⟩
      rw [if_pos ⟨by linarith, by linarith, hp.2.2⟩, ← hq]
      exact hd
  refine (hglyph.trans (fillRect_paints wd ht _ (x + 5 * scale) y scale (7 * scale) bg)).congr
    fun px py _ _ => ?_
  unfold cellPaint
  by_cases hy : y ≤ (py : Int) ∧ (py : Int) < y + 7 * scale
  · by_cases h5 : x + 5 * scale ≤ (px : Int) ∧ (px : Int) < x + 6 * scale
    · have hcell : x ≤ (px : Int) ∧ (px : Int) < x + 6 * scale ∧ y ≤ (py : Int) ∧ (py : Int) < y + 7 * scale :=
        ⟨by linarith, h5.2, hy⟩
      rw [if_pos ⟨h5.1, by linarith, hy.1, by linarith⟩, if_pos hcell,
        toNat_ediv_eq (a := px - x) (s := scale) (c := 5) (by push_cast; linarith) (by push_cast; linarith),
        glyphBit_of_le (le_refl 5)]
      rfl
    · rw [if_neg fun h => h5 ⟨h.1, by linarith [h.2.1]⟩, Option.none_or]
      by_cases hx : x ≤ (px : Int) ∧ (px : Int) < x + 5 * scale
      · have hcell : x ≤ (px : Int) ∧ (px : Int) < x + 6 * scale ∧ y ≤ (py : Int) ∧ (py : Int) < y + 7 * scale :=
          ⟨hx.1, by linarith, hy⟩
        rw [if_pos ⟨hx.1, hx.2, hy⟩, if_pos hcell]
      · rw [if_neg fun h => hx ⟨h.1, h.2.1⟩, if_neg fun h => ?_]
        by_cases hlt : (px : Int) < x + 5 * scale
        · exact hx ⟨h.1, hlt⟩
        · exact h5 ⟨by linarith, h.2.1⟩
  · rw [if_neg fun h => hy ⟨h.2.2.1, by linarith [h.2.2.2]⟩, if_neg fun h => hy h.2.2,
      if_neg fun h => hy h.2.2]
    rfl

/-- The cells of a string do not overlap (R112 law 1). -/
theorem cellPaint_disjoint {g g' : Glyph} {x y scale : Int} {fg bg : Color} {j k : Nat} (h : j < k) (px py : Int)
    (hp : (cellPaint g (x + 6 * scale * j) y scale fg bg px py).isSome) :
    cellPaint g' (x + 6 * scale * k) y scale fg bg px py = none := by
  obtain ⟨c, hc⟩ := Option.isSome_iff_exists.1 hp
  obtain ⟨hj, -⟩ := Option.ite_none_right_eq_some.1 hc
  have hs : 0 ≤ scale := by linarith [hj.1, hj.2.1]
  have := block_le (s := scale) (c := j) (n := k) hs h
  refine if_neg fun hk => ?_
  linarith [hk.1, hj.2.1]

/-- DRAW_TEXT paints its characters' cells side by side (R105). -/
theorem drawTextFrom_paints (cfg : Config) (wd ht : Nat) (x y : Int) {scale : Int} (hs : 0 ≤ scale) (fg bg : Color)
    (k : Nat) (text : List Byte) (m : Memory) :
    Paints wd ht m (drawTextFrom cfg wd ht x y scale fg bg k text m) (textPaint cfg x y scale fg bg k text) := by
  induction text generalizing k m with
  | nil => exact Paints.refl wd ht m
  | cons ch text ih =>
    refine ((drawCell_paints wd ht m (x + 6 * scale * k) y (glyphCols cfg ch) hs fg bg).trans
      (ih (k + 1) _)).congr fun px py _ _ => ?_
    simp only [textPaint, List.zipIdx_cons, List.findSome?_cons]
    cases hc : cellPaint (glyphCols cfg ch) (x + 6 * scale * k) y scale fg bg px py with
    | none => simp
    | some c =>
      have : (text.zipIdx (k + 1)).findSome? (fun p => cellPaint (glyphCols cfg p.1) (x + 6 * scale * p.2) y scale
          fg bg px py) = none := by
        rw [List.findSome?_eq_none_iff]
        intro p hp
        have hk := List.le_snd_of_mem_zipIdx hp
        exact cellPaint_disjoint (g := glyphCols cfg ch) (j := k) (by omega) px py (by rw [hc]; rfl)
      rw [this]
      rfl

/-! ## Bars -/

/-- The foreground width lies between 0 and the bar's width (R108). -/
theorem barFill_bounds (percent w : Int) : 0 ≤ barFill percent w ∧ (0 ≤ w → barFill percent w ≤ w) := by
  unfold barFill clamp
  split_ifs with hw
  · exact ⟨le_refl 0, id⟩
  · have h0 : 0 ≤ min (max percent 0) 100 * w := mul_nonneg (by omega) (by omega)
    have h1 : min (max percent 0) 100 * w ≤ 100 * w := mul_le_mul_of_nonneg_right (by omega) (by omega)
    constructor
    · omega
    · intro
      omega

/-- DRAW_BAR paints its background, foreground and border (R109). -/
theorem drawBar_paints (wd ht : Nat) (m : Memory) (x y w h percent : Int) (fg bg frame : Color) :
    Paints wd ht m (drawBar wd ht m x y w h percent fg bg frame) (barPaint x y w h percent fg bg frame) := by
  have hf := barFill_bounds percent w
  unfold drawBar
  have hfront := (fillRect_paints wd ht m x y w h bg).trans
    (fillRect_paints wd ht _ x y (barFill percent w) h fg)
  unfold drawBorder
  split_ifs with hwh
  · refine ((((hfront.trans (fillRect_paints wd ht _ x y w 1 frame)).trans
      (fillRect_paints wd ht _ x (y + h - 1) w 1 frame)).trans (fillRect_paints wd ht _ x y 1 h frame)).trans
      (fillRect_paints wd ht _ (x + w - 1) y 1 h frame)).congr fun px py _ _ => ?_
    have hf' := hf.2 (by omega)
    unfold barPaint
    split_ifs <;> first | rfl | omega
  · refine hfront.congr fun px py _ _ => ?_
    unfold barPaint
    have : barFill percent w ≤ max w 0 := by
      by_cases hw : 0 ≤ w
      · have := hf.2 hw
        omega
      · unfold barFill
        rw [if_pos (by omega)]
        omega
    rw [if_neg (by omega), if_neg (by omega), if_neg (by omega)]
    rfl

/-! ## Rotation -/

theorem Memory.read_filterMap_range' (k n : Nat) (f : Nat → Option Color) (j : Nat) :
    Memory.read ((List.range' k n).filterMap fun i => (f i).map fun c => (i, c)) j =
      if k ≤ j ∧ j < k + n then f j else none := by
  induction n generalizing k with
  | zero =>
    rw [if_neg (by omega)]
    rfl
  | succ n ih =>
    rw [List.range'_succ, List.filterMap_cons]
    cases hf : f k with
    | none =>
      simp only [Option.map_none]
      rw [ih]
      by_cases h : j = k
      · subst h
        rw [if_neg (by omega), hf]
        simp
      · by_cases h' : k ≤ j ∧ j < k + (n + 1)
        · rw [if_pos h', if_pos (by omega)]
        · rw [if_neg h', if_neg (by omega)]
    | some c =>
      simp only [Option.map_some]
      rw [Memory.read, ih]
      by_cases h : j = k
      · subst h
        rw [if_pos rfl, if_pos (by omega), hf]
      · rw [if_neg h]
        by_cases h' : k ≤ j ∧ j < k + (n + 1)
        · rw [if_pos h', if_pos (by omega)]
        · rw [if_neg h', if_neg (by omega)]

/-- The destination of a rotation, by linear index. -/
theorem rotateCells_read (wd ht : Nat) (src : Memory) (k : Nat) :
    (rotateCells wd ht src).read k = if k < wd * ht then src.cell ht (k / wd) (wd - 1 - k % wd) else none := by
  unfold rotateCells
  rw [List.range_eq_range',
    Memory.read_filterMap_range' 0 (wd * ht) fun k => src.cell ht (k / wd) (wd - 1 - k % wd)]
  simp

/-- The inverse read map: destination cell `(x, y)` is source cell `(y, W[d]-1-x)` (R111 law 2). -/
theorem rotateCells_cell {wd ht : Nat} (src : Memory) {x y : Nat} (hx : x < wd) (hy : y < ht) :
    (rotateCells wd ht src).cell wd x y = src.cell ht y (wd - 1 - x) := by
  have hk : cellIndex wd x y < wd * ht := cellIndex_lt hx hy
  have hdiv : cellIndex wd x y / wd = y := by
    unfold cellIndex
    rw [Nat.mul_comm, Nat.mul_add_div (by omega), Nat.div_eq_of_lt hx, Nat.add_zero]
  have hmod : cellIndex wd x y % wd = x := by
    unfold cellIndex
    rw [Nat.mul_comm, Nat.mul_add_mod, Nat.mod_eq_of_lt hx]
  rw [Memory.cell, rotateCells_read, if_pos hk, hdiv, hmod]

theorem rotateCells_wf (wd ht : Nat) (src : Memory) : (rotateCells wd ht src).wf := by
  unfold Memory.wf rotateCells
  rw [List.pairwise_filterMap]
  refine List.pairwise_lt_range.imp fun {a b} hab p hp q hq => ?_
  obtain ⟨_, _, rfl⟩ := Option.map_eq_some_iff.1 hp
  obtain ⟨_, _, rfl⟩ := Option.map_eq_some_iff.1 hq
  exact hab

theorem rotateCells_within (wd ht : Nat) (src : Memory) : (rotateCells wd ht src).within (wd * ht) := by
  intro p hp
  obtain ⟨k, hk, h⟩ := List.mem_filterMap.1 hp
  obtain ⟨_, _, rfl⟩ := Option.map_eq_some_iff.1 h
  exact List.mem_range.1 hk

end Sys2Proof.Machine
end

