-- ==== Sys2Proof/Laws/Plan.lean ====
section
/-!
SUPPORT. The transfer plan's arithmetic (R144, R150) and the color packer (R44).
-/

namespace Sys2Proof.Machine

/-- `C·(N-1) < F ≤ C·N` (R150). -/
theorem planCount_bounds {cfg : Config} {b : Fb} (hF : 0 < frameSize cfg b) (hC : 0 < cfg.chunk) :
    0 < planCount cfg b ∧ cfg.chunk * (planCount cfg b - 1) < frameSize cfg b ∧
      frameSize cfg b ≤ cfg.chunk * planCount cfg b := by
  unfold planCount
  generalize frameSize cfg b = F at *
  generalize cfg.chunk = C at *
  have h1 := Nat.div_add_mod (F + C - 1) C
  have h2 := Nat.mod_lt (F + C - 1) hC
  have hpos : 0 < (F + C - 1) / C := Nat.div_pos (by omega) hC
  refine ⟨hpos, ?_, ?_⟩
  · obtain ⟨n, hn⟩ : ∃ n, (F + C - 1) / C = n + 1 := ⟨_, (Nat.succ_pred_eq_of_pos hpos).symm⟩
    rw [hn] at h1 ⊢
    rw [Nat.add_sub_cancel]
    rw [Nat.mul_add] at h1
    omega
  · omega

/-- `N ≤ 255` where `F ≤ 255·C` (R7, R146). -/
theorem planCount_le {cfg : Config} {b : Fb} (hF : 0 < frameSize cfg b)
    (hF' : frameSize cfg b ≤ 255 * cfg.chunk) : planCount cfg b ≤ 255 := by
  have hC : 0 < cfg.chunk := by omega
  unfold planCount
  have : (frameSize cfg b + cfg.chunk - 1) / cfg.chunk < 256 := by
    apply Nat.div_lt_of_lt_mul
    omega
  omega

/-- Every payload has 1 to `C` bytes (R150 law 2). -/
theorem planLen_bounds {cfg : Config} {b : Fb} {i : Nat} (hF : 0 < frameSize cfg b) (hC : 0 < cfg.chunk) :
    0 < planLen cfg b i ∧ planLen cfg b i ≤ cfg.chunk := by
  obtain ⟨h1, h2, h3⟩ := planCount_bounds hF hC
  unfold planLen
  split_ifs
  · exact ⟨hC, le_refl _⟩
  · obtain ⟨n, hn⟩ : ∃ n, planCount cfg b = n + 1 := ⟨_, (Nat.succ_pred_eq_of_pos h1).symm⟩
    rw [hn] at h2 h3 ⊢
    rw [Nat.add_sub_cancel] at h2 ⊢
    rw [Nat.mul_add] at h3
    omega

/-- A packet's payload ends within the frame (R150 law 3). -/
theorem planLen_end {cfg : Config} {b : Fb} {i : Nat} (hF : 0 < frameSize cfg b) (hC : 0 < cfg.chunk)
    (hi : i < planCount cfg b) : cfg.chunk * i + planLen cfg b i ≤ frameSize cfg b := by
  obtain ⟨h1, h2, h3⟩ := planCount_bounds hF hC
  unfold planLen
  split_ifs with h
  · have : cfg.chunk * (i + 1) ≤ cfg.chunk * (planCount cfg b - 1) := Nat.mul_le_mul_left _ (by omega)
    rw [Nat.mul_add] at this
    omega
  · obtain rfl : i = planCount cfg b - 1 := by omega
    omega

/-- The last payload ends with the frame (R150 law 1). -/
theorem planLen_last {cfg : Config} {b : Fb} {i : Nat} (hF : 0 < frameSize cfg b) (hC : 0 < cfg.chunk)
    (hi : i + 1 = planCount cfg b) : cfg.chunk * i + planLen cfg b i = frameSize cfg b := by
  obtain ⟨h1, h2, h3⟩ := planCount_bounds hF hC
  unfold planLen
  rw [if_neg (by omega)]
  obtain rfl : i = planCount cfg b - 1 := by omega
  omega

/-- A data region has `C` bytes (R148, R70). -/
theorem planData_length {cfg : Config} {frame : List Byte} {sent len : Nat} (h : sent + len ≤ frame.length)
    (hlen : len ≤ cfg.chunk) : (planData cfg frame sent len).length = cfg.chunk := by
  unfold planData
  rw [List.length_append, List.length_take, List.length_drop, List.length_replicate]
  omega

/-- The payload of a data region is the frame's slice (R148). -/
theorem planData_take {cfg : Config} {frame : List Byte} {sent len : Nat} (h : sent + len ≤ frame.length) :
    (planData cfg frame sent len).take len = (frame.drop sent).take len := by
  unfold planData
  rw [List.take_append_of_le_length (by rw [List.length_take, List.length_drop]; omega), List.take_take,
    min_self]

/-- Cells that are all written pack to their bytes in order (R44). -/
theorem packCells_some (cs : List Color) : packCells (cs.map some) = some (cs.flatMap colorBytes) := by
  induction cs with
  | nil => rfl
  | cons c cs ih => rw [List.map_cons, packCells, ih, List.flatMap_cons]; rfl

/-- Packing fails exactly where a cell is unwritten (R44, R185). -/
theorem packCells_isSome (cs : List (Option Color)) :
    (packCells cs).isSome = true ↔ ∀ c ∈ cs, c.isSome = true := by
  induction cs with
  | nil => simp [packCells]
  | cons c cs ih =>
    cases c with
    | none => simp [packCells]
    | some c => simp [packCells, ih]

/-- A frame has two bytes for each cell (R45). -/
theorem packCells_length {cs : List (Option Color)} {bytes : List Byte} (h : packCells cs = some bytes) :
    bytes.length = 2 * cs.length := by
  induction cs generalizing bytes with
  | nil => cases h; rfl
  | cons c cs ih =>
    cases c with
    | none => cases h
    | some c =>
      obtain ⟨bs, hbs, rfl⟩ := Option.map_eq_some_iff.1 h
      have := ih hbs
      simp only [List.length_append, List.length_cons, colorBytes, List.length_nil]
      omega

/-- Bytes `2k` and `2k+1` of a frame are the two bytes of cell `k` (R44). -/
theorem packCells_getElem? {cs : List (Option Color)} {bytes : List Byte} (h : packCells cs = some bytes) {k : Nat}
    {c : Color} (hk : cs[k]? = some (some c)) :
    bytes[2 * k]? = some (c.extractLsb' 0 8) ∧ bytes[2 * k + 1]? = some (c.extractLsb' 8 8) := by
  induction cs generalizing bytes k with
  | nil => simp at hk
  | cons d cs ih =>
    cases d with
    | none => cases h
    | some d =>
      obtain ⟨bs, hbs, rfl⟩ := Option.map_eq_some_iff.1 h
      cases k with
      | zero =>
        simp only [List.getElem?_cons_zero, Option.some.injEq] at hk
        subst hk
        exact ⟨rfl, rfl⟩
      | succ k =>
        rw [List.getElem?_cons_succ] at hk
        exact ih hbs hk

theorem Memory.cellsFrom_length (k n : Nat) (m : Memory) : (Memory.cellsFrom k n m).length = n := by
  induction n generalizing k m with
  | zero => rfl
  | succ n ih =>
    cases m with
    | nil => simp [Memory.cellsFrom, ih]
    | cons p m =>
      obtain ⟨a, c⟩ := p
      unfold Memory.cellsFrom
      split_ifs <;> simp [ih]

/-- `FrameBytes(b)` has `F[b]` bytes (R45). -/
theorem frameBytes_length {s : State} {b : Fb} {frame : List Byte} (h : frameBytes s b = some frame) :
    frame.length = frameSize s.cfg b := by
  rw [packCells_length h, Memory.cellsFrom_length, frameSize, Nat.mul_assoc]

end Sys2Proof.Machine
end

