-- ==== Sys2Proof/Laws/State.lean ====
section
/-!
SUPPORT. The fields of the state after each named update.
-/

namespace Sys2Proof.Machine

/-! ## A framebuffer replaced -/

@[simp] theorem State.fb_fb0 (s : State) : s.fb .fb0 = s.fb0 := rfl
@[simp] theorem State.fb_fb1 (s : State) : s.fb .fb1 = s.fb1 := rfl
@[simp] theorem State.setFb_fb (s : State) (b b' : Fb) (m : Memory) :
    (s.setFb b m).fb b' = if b' = b then m else s.fb b' := by
  cases b <;> cases b' <;> rfl
@[simp] theorem State.setFb_cfg (s : State) (b : Fb) (m : Memory) : (s.setFb b m).cfg = s.cfg := by
  cases b <;> rfl
@[simp] theorem State.setFb_status (s : State) (b : Fb) (m : Memory) : (s.setFb b m).status = s.status := by
  cases b <;> rfl
@[simp] theorem State.setFb_cursorX (s : State) (b : Fb) (m : Memory) : (s.setFb b m).cursorX = s.cursorX := by
  cases b <;> rfl
@[simp] theorem State.setFb_engine (s : State) (b : Fb) (m : Memory) : (s.setFb b m).engine = s.engine := by
  cases b <;> rfl
@[simp] theorem State.setFb_words (s : State) (b : Fb) (m : Memory) : (s.setFb b m).words = s.words := by
  cases b <;> rfl
@[simp] theorem State.setFb_response (s : State) (b : Fb) (m : Memory) : (s.setFb b m).response = s.response := by
  cases b <;> rfl
@[simp] theorem State.setFb_port (s : State) (b : Fb) (m : Memory) : (s.setFb b m).port = s.port := by
  cases b <;> rfl
@[simp] theorem State.setFb_answers (s : State) (b : Fb) (m : Memory) : (s.setFb b m).answers = s.answers := by
  cases b <;> rfl
@[simp] theorem State.setFb_turns (s : State) (b : Fb) (m : Memory) : (s.setFb b m).turns = s.turns := by
  cases b <;> rfl
@[simp] theorem State.setFb_emits (s : State) (b : Fb) (m : Memory) : (s.setFb b m).emits = s.emits := by
  cases b <;> rfl
@[simp] theorem State.setFb_completed (s : State) (b : Fb) (m : Memory) : (s.setFb b m).completed = s.completed := by
  cases b <;> rfl
@[simp] theorem State.setFb_runStart (s : State) (b : Fb) (m : Memory) : (s.setFb b m).runStart = s.runStart := by
  cases b <;> rfl

/-! ## A framebuffer drawn on -/

@[simp] theorem State.paint_fb (s : State) (b b' : Fb) (f : Nat → Nat → Memory → Memory) :
    (s.paint b f).fb b' = if b' = b then f (s.cfg.width b) (s.cfg.height b) (s.fb b) else s.fb b' :=
  State.setFb_fb s b b' _
@[simp] theorem State.paint_cfg (s : State) (b : Fb) (f : Nat → Nat → Memory → Memory) :
    (s.paint b f).cfg = s.cfg := State.setFb_cfg s b _
@[simp] theorem State.paint_status (s : State) (b : Fb) (f : Nat → Nat → Memory → Memory) :
    (s.paint b f).status = s.status := State.setFb_status s b _
@[simp] theorem State.paint_cursorX (s : State) (b : Fb) (f : Nat → Nat → Memory → Memory) :
    (s.paint b f).cursorX = s.cursorX := State.setFb_cursorX s b _
@[simp] theorem State.paint_engine (s : State) (b : Fb) (f : Nat → Nat → Memory → Memory) :
    (s.paint b f).engine = s.engine := State.setFb_engine s b _
@[simp] theorem State.paint_words (s : State) (b : Fb) (f : Nat → Nat → Memory → Memory) :
    (s.paint b f).words = s.words := State.setFb_words s b _
@[simp] theorem State.paint_response (s : State) (b : Fb) (f : Nat → Nat → Memory → Memory) :
    (s.paint b f).response = s.response := State.setFb_response s b _
@[simp] theorem State.paint_port (s : State) (b : Fb) (f : Nat → Nat → Memory → Memory) :
    (s.paint b f).port = s.port := State.setFb_port s b _
@[simp] theorem State.paint_answers (s : State) (b : Fb) (f : Nat → Nat → Memory → Memory) :
    (s.paint b f).answers = s.answers := State.setFb_answers s b _
@[simp] theorem State.paint_turns (s : State) (b : Fb) (f : Nat → Nat → Memory → Memory) :
    (s.paint b f).turns = s.turns := State.setFb_turns s b _
@[simp] theorem State.paint_emits (s : State) (b : Fb) (f : Nat → Nat → Memory → Memory) :
    (s.paint b f).emits = s.emits := State.setFb_emits s b _
@[simp] theorem State.paint_completed (s : State) (b : Fb) (f : Nat → Nat → Memory → Memory) :
    (s.paint b f).completed = s.completed := State.setFb_completed s b _
@[simp] theorem State.paint_runStart (s : State) (b : Fb) (f : Nat → Nat → Memory → Memory) :
    (s.paint b f).runStart = s.runStart := State.setFb_runStart s b _

/-! ## The end of a command (R170) -/

@[simp] theorem finish_fb (code : Code) (idx : Nat) (s : State) (b : Fb) : (finish code idx s).fb b = s.fb b := by
  cases b <;> rfl
@[simp] theorem finish_status (code : Code) (idx : Nat) (s : State) :
    (finish code idx s).status = statusWord code idx := rfl
@[simp] theorem finish_response (code : Code) (idx : Nat) (s : State) :
    (finish code idx s).response = some ⟨statusWord code idx, s.cursorX⟩ := rfl
@[simp] theorem finish_engine (code : Code) (idx : Nat) (s : State) : (finish code idx s).engine = .idle := rfl
@[simp] theorem finish_cfg (code : Code) (idx : Nat) (s : State) : (finish code idx s).cfg = s.cfg := rfl
@[simp] theorem finish_cursorX (code : Code) (idx : Nat) (s : State) : (finish code idx s).cursorX = s.cursorX := rfl
@[simp] theorem finish_words (code : Code) (idx : Nat) (s : State) : (finish code idx s).words = s.words := rfl
@[simp] theorem finish_port (code : Code) (idx : Nat) (s : State) : (finish code idx s).port = s.port := rfl
@[simp] theorem finish_answers (code : Code) (idx : Nat) (s : State) : (finish code idx s).answers = s.answers := rfl
@[simp] theorem finish_turns (code : Code) (idx : Nat) (s : State) : (finish code idx s).turns = s.turns := rfl
@[simp] theorem finish_emits (code : Code) (idx : Nat) (s : State) : (finish code idx s).emits = s.emits := rfl
@[simp] theorem finish_completed (code : Code) (idx : Nat) (s : State) : (finish code idx s).completed = s.completed := rfl
@[simp] theorem finish_runStart (code : Code) (idx : Nat) (s : State) : (finish code idx s).runStart = s.runStart := rfl

/-! ## The start of an Emit (R151) -/

@[simp] theorem startEmit_fb (p : Packet) (job : Job) (s : State) (b : Fb) : (startEmit p job s).fb b = s.fb b := by
  cases b <;> rfl
@[simp] theorem startEmit_engine (p : Packet) (job : Job) (s : State) :
    (startEmit p job s).engine = .emitting p job := rfl
@[simp] theorem startEmit_cfg (p : Packet) (job : Job) (s : State) : (startEmit p job s).cfg = s.cfg := rfl
@[simp] theorem startEmit_status (p : Packet) (job : Job) (s : State) : (startEmit p job s).status = s.status := rfl
@[simp] theorem startEmit_cursorX (p : Packet) (job : Job) (s : State) : (startEmit p job s).cursorX = s.cursorX := rfl
@[simp] theorem startEmit_words (p : Packet) (job : Job) (s : State) : (startEmit p job s).words = s.words := rfl
@[simp] theorem startEmit_response (p : Packet) (job : Job) (s : State) : (startEmit p job s).response = s.response := rfl
@[simp] theorem startEmit_port (p : Packet) (job : Job) (s : State) : (startEmit p job s).port = s.port := rfl
@[simp] theorem startEmit_answers (p : Packet) (job : Job) (s : State) : (startEmit p job s).answers = s.answers := rfl
@[simp] theorem startEmit_turns (p : Packet) (job : Job) (s : State) : (startEmit p job s).turns = s.turns := rfl
@[simp] theorem startEmit_emits (p : Packet) (job : Job) (s : State) : (startEmit p job s).emits = s.emits := rfl
@[simp] theorem startEmit_completed (p : Packet) (job : Job) (s : State) : (startEmit p job s).completed = s.completed := rfl
@[simp] theorem startEmit_runStart (p : Packet) (job : Job) (s : State) : (startEmit p job s).runStart = s.runStart := rfl

/-! ## STATUS words (R170) -/

@[simp] theorem statusWord_ok : statusWord .ok 0 = 0 := by decide
@[simp] theorem statusWord_illegalCommand : statusWord .illegalCommand 0 = 1 := by decide
@[simp] theorem statusWord_frameSizeInvalid : statusWord .frameSizeInvalid 0 = 2 := by decide
@[simp] theorem statusWord_rotateGeometry : statusWord .rotateGeometry 0 = 4 := by decide

/-- A transport failure's STATUS: FAIL_INDEX in bits 15 to 8, CODE 3 (R170, R173). -/
theorem statusWord_transportFailure {i : Nat} (h : i ≤ 255) :
    statusWord .transportFailure i = BitVec.ofNat 32 (256 * i + 3) := by
  interval_cases i <;> decide

/-- `finish` writes legal STATUS values (R23). -/
theorem statusLegal_statusWord {code : Code} {i : Nat} (h : i ≤ 254) (h0 : code ≠ .transportFailure → i = 0) :
    statusLegal (statusWord code i) = true := by
  cases code
  case transportFailure => interval_cases i <;> decide
  all_goals
    obtain rfl := h0 (by simp)
    decide

end Sys2Proof.Machine
end

