-- ==== Sys2Proof/Laws/Exec.lean ====
section
/-!
SUPPORT. What a drawing command leaves, from what its drawing operation paints, and the state each answer to an
`Emit` leaves.
-/

namespace Sys2Proof.Machine

/-- A framebuffer painted in a state is that framebuffer drawn on, and no other. -/
theorem Paints.drawsOnly {s t : State} {b : Fb} {f : Int → Int → Option Color}
    (h : Paints (s.cfg.width b) (s.cfg.height b) (s.fb b) (t.fb b) f) (ho : ∀ b', b' ≠ b → t.fb b' = s.fb b') :
    DrawsOnly s t b f :=
  ⟨h.cell, h.beyond, ho⟩

/-- A drawing command that paints `f` ends with `f` drawn in its framebuffer, and nothing else drawn. -/
theorem paint_drawsOnly {s : State} {b : Fb} {op : Nat → Nat → Memory → Memory} {f : Int → Int → Option Color}
    (h : Paints (s.cfg.width b) (s.cfg.height b) (s.fb b) (op (s.cfg.width b) (s.cfg.height b) (s.fb b)) f)
    (code : Code) (idx : Nat) (cur : Word) :
    DrawsOnly s (finish code idx { s.paint b op with cursorX := cur }) b f := by
  refine Paints.drawsOnly ?_ fun b' hb => ?_
  · have : (finish code idx { s.paint b op with cursorX := cur }).fb b =
        op (s.cfg.width b) (s.cfg.height b) (s.fb b) := by cases b <;> rfl
    rw [this]
    exact h
  · cases b <;> cases b' <;> first | rfl | exact absurd rfl hb

/-- A drawing command returns with its code, and no field but the framebuffer, STATUS, CURSOR_X, the response and the
engine's state differs (R170). -/
theorem paint_returned (s : State) (b : Fb) (op : Nat → Nat → Memory → Memory) (code : Code) (idx : Nat)
    (cur : Word) :
    Returned s (finish code idx { s.paint b op with cursorX := cur }) (statusWord code idx) cur := by
  cases b <;> exact ⟨rfl, rfl, rfl, rfl, rfl, rfl, rfl, rfl, rfl, rfl⟩

theorem paint_emitsNothing (s : State) (b : Fb) (op : Nat → Nat → Memory → Memory) (code : Code) (idx : Nat)
    (cur : Word) :
    EmitsNothing s (finish code idx { s.paint b op with cursorX := cur }) := by
  cases b <;> exact ⟨rfl, rfl⟩

/-- A drawing that leaves CURSOR_X: the same state, with the cursor written out. -/
theorem paint_cursorX_self (s : State) (b : Fb) (op : Nat → Nat → Memory → Memory) :
    s.paint b op = { s.paint b op with cursorX := s.cursorX } := by
  cases b <;> rfl

/-- CLEAR paints every cell (R101). -/
theorem clearCells_paints {wd ht : Nat} {m : Memory} (hm : m.within (wd * ht)) (c : Color) :
    Paints wd ht m (clearCells wd ht c) fun _ _ => some c where
  cell px py hx hy := by
    rw [Memory.cell, clearCells_read, if_pos (cellIndex_lt hx hy)]
    rfl
  beyond k hk := by
    rw [clearCells_read, if_neg (by omega)]
    exact (Memory.read_of_within hm hk).symm
  wf _ := clearCells_wf wd ht c
  within _ := clearCells_within wd ht c

/-- What the `Emit` of the packet in progress does, once it is answered (R151). -/
theorem emit_answered {p : Packet} {job : Job} {s : State} {a : Answer} {as : List Answer}
    (he : s.engine = .emitting p job) (ha : s.answers = a :: as) :
    emit p s = afterEmit a job { s with answers := as, emits := s.emits ++ [⟨packetBytes s.cfg p, some a⟩] } := by
  unfold emit
  rw [he, ha]
  exact if_pos rfl

/-- An `Emit` without an answer moves nothing (R196). -/
theorem emit_waits {p : Packet} {s : State} (ha : s.answers = []) : emit p s = s := by
  unfold emit
  rw [ha]
  cases s.engine <;> rfl

/-- An `Emit` that moves is the answered `Emit` of the packet in progress. -/
theorem emit_cases (p : Packet) (s : State) :
    emit p s = s ∨ ∃ job a as, s.engine = .emitting p job ∧ s.answers = a :: as ∧
      emit p s = afterEmit a job { s with answers := as, emits := s.emits ++ [⟨packetBytes s.cfg p, some a⟩] } := by
  cases hen : s.engine with
  | idle => exact .inl (by unfold emit; rw [hen])
  | emitting q job =>
    cases has : s.answers with
    | nil => exact .inl (emit_waits has)
    | cons a as =>
      by_cases hq : q = p
      · subst hq
        exact .inr ⟨job, a, as, rfl, rfl, emit_answered hen has⟩
      · refine .inl ?_
        unfold emit
        rw [hen, has]
        exact if_neg hq

/-- The four ways the engine goes on after an answer (R140, R149, R152). -/
theorem afterEmit_cases (a : Answer) (job : Job) (s : State) :
    (∃ code, job = .control ∧ afterEmit a job s = finish code 0 s ∧ (code = .ok ∨ code = .transportFailure)) ∨
    (∃ b i sent frame, job = .redraw b i sent frame ∧
      ((a = .ok ∧ i + 1 < planCount s.cfg b ∧
          afterEmit a job s = startRedrawPacket b (i + 1) (sent + planLen s.cfg b i) frame s) ∨
        (a = .ok ∧ planCount s.cfg b ≤ i + 1 ∧ afterEmit a job s = finish .ok 0 s) ∨
        (a = .fail ∧ afterEmit a job s = finish .transportFailure i s))) := by
  cases job with
  | control => cases a <;> exact .inl ⟨_, rfl, rfl, by simp⟩
  | redraw b i sent frame =>
    refine .inr ⟨b, i, sent, frame, rfl, ?_⟩
    cases a with
    | fail => exact .inr (.inr ⟨rfl, rfl⟩)
    | ok =>
      by_cases h : i + 1 < planCount s.cfg b
      · exact .inl ⟨rfl, h, if_pos h⟩
      · exact .inr (.inl ⟨rfl, by omega, if_neg h⟩)

/-- What no answer to an `Emit` changes: the configuration, the framebuffers, CURSOR_X, the words, the port, the turns,
the commands completed and where the run starts. -/
theorem afterEmit_keeps (a : Answer) (job : Job) (s : State) :
    (afterEmit a job s).cfg = s.cfg ∧ (∀ b, (afterEmit a job s).fb b = s.fb b) ∧
      (afterEmit a job s).cursorX = s.cursorX ∧ (afterEmit a job s).words = s.words ∧
      (afterEmit a job s).port = s.port ∧ (afterEmit a job s).turns = s.turns ∧
      (afterEmit a job s).completed = s.completed ∧ (afterEmit a job s).emits = s.emits ∧
      (afterEmit a job s).answers = s.answers ∧ (afterEmit a job s).runStart = s.runStart := by
  rcases afterEmit_cases a job s with ⟨code, -, h, -⟩ | ⟨b, i, sent, frame, -, h⟩
  · rw [h]
    exact ⟨rfl, fun b => finish_fb code 0 s b, rfl, rfl, rfl, rfl, rfl, rfl, rfl, rfl⟩
  · rcases h with ⟨-, -, h⟩ | ⟨-, -, h⟩ | ⟨-, h⟩ <;> rw [h]
    · exact ⟨rfl, fun b => startEmit_fb _ _ s b, rfl, rfl, rfl, rfl, rfl, rfl, rfl, rfl⟩
    · exact ⟨rfl, fun b => finish_fb _ _ s b, rfl, rfl, rfl, rfl, rfl, rfl, rfl, rfl⟩
    · exact ⟨rfl, fun b => finish_fb _ _ s b, rfl, rfl, rfl, rfl, rfl, rfl, rfl, rfl⟩

/-- What no `Emit` changes, answered or not. -/
theorem emit_keeps (p : Packet) (s : State) :
    (emit p s).cfg = s.cfg ∧ (∀ b, (emit p s).fb b = s.fb b) ∧ (emit p s).cursorX = s.cursorX ∧
      (emit p s).words = s.words ∧ (emit p s).port = s.port ∧ (emit p s).turns = s.turns ∧
      (emit p s).completed = s.completed ∧ (emit p s).runStart = s.runStart := by
  rcases emit_cases p s with h | ⟨job, a, as, -, -, h⟩
  · rw [h]
    exact ⟨rfl, fun _ => rfl, rfl, rfl, rfl, rfl, rfl, rfl⟩
  · rw [h]
    obtain ⟨h1, h2, h3, h4, h5, h6, h7, -, -, h8⟩ := afterEmit_keeps a job
      { s with answers := as, emits := s.emits ++ [⟨packetBytes s.cfg p, some a⟩] }
    exact ⟨h1, fun b => (h2 b).trans (by cases b <;> rfl), h3, h4, h5, h6, h7, h8⟩

/-- `FrameBytes(b)` packs the cells of a canonical framebuffer in row-major order (R43, R44). -/
theorem frameBytes_eq {s : State} {b : Fb} (h : (s.fb b).wf) :
    frameBytes s b = packCells ((List.range (s.cfg.width b * s.cfg.height b)).map (s.fb b).read) := by
  unfold frameBytes
  rw [Memory.cells_eq h]

/-- `FrameBytes(b)` exists exactly where every cell has been written (R44). -/
theorem frameBytes_isSome {s : State} {b : Fb} (h : (s.fb b).wf) :
    (frameBytes s b).isSome = true ↔ AllWritten s b := by
  rw [frameBytes_eq h, packCells_isSome]
  constructor
  · intro hall x y hx hy
    exact hall _ (List.mem_map.2 ⟨cellIndex _ x y, List.mem_range.2 (cellIndex_lt hx hy), rfl⟩)
  · intro hall c hc
    obtain ⟨k, hk, rfl⟩ := List.mem_map.1 hc
    obtain ⟨x, y, hx, hy, rfl⟩ := exists_cellIndex (List.mem_range.1 hk)
    exact hall x y hx hy

/-- The three ways a REDRAW goes (R149, R172, R185). -/
theorem execRedraw_cases (b : Fb) (s : State) :
    ((frameSize s.cfg b = 0 ∨ 255 * s.cfg.chunk < frameSize s.cfg b) ∧
      execRedraw b s = .next (finish .frameSizeInvalid 0 s)) ∨
    (0 < frameSize s.cfg b ∧ frameSize s.cfg b ≤ 255 * s.cfg.chunk ∧ frameBytes s b = none ∧
      execRedraw b s = .fault .unwrittenPixel) ∨
    (∃ frame, 0 < frameSize s.cfg b ∧ frameSize s.cfg b ≤ 255 * s.cfg.chunk ∧ frameBytes s b = some frame ∧
      execRedraw b s = .next (startRedrawPacket b 0 0 frame s)) := by
  unfold execRedraw
  split_ifs with h
  · exact .inl ⟨h, rfl⟩
  · cases hf : frameBytes s b with
    | none => exact .inr (.inl ⟨by omega, by omega, rfl, rfl⟩)
    | some frame => exact .inr (.inr ⟨frame, by omega, by omega, rfl, rfl⟩)

/-- The two ways a ROTATE_90CW goes (R110). -/
theorem execRotate90cw_cases (src dst : Fb) (s : State) :
    (rotatable s.cfg src dst = true ∧ execRotate90cw src dst s =
      .next (finish .ok 0 (s.paint dst fun wd ht _ => rotateCells wd ht (s.fb src)))) ∨
    (rotatable s.cfg src dst = false ∧ execRotate90cw src dst s = .next (finish .rotateGeometry 0 s)) := by
  unfold execRotate90cw
  cases h : rotatable s.cfg src dst <;> simp

end Sys2Proof.Machine
end

