-- ==== Sys2Proof/Laws/PerInstr.lean ====
section
/-!
SUPPORT. Statements about every instruction, one lemma for each constructor.
-/

namespace Sys2Proof.Laws

/-! ## CommandWords: the encoder's words are as many as the header word says (R64); a packet has none -/

/-- A well-formed command's words begin with a header word that tells their number; a packet has no command words. -/
def CommandWords.Statement (i : Instr) : Prop :=
  ∀ cfg, i.wellFormed cfg = true →
    if i.isCommand = true then
      ∃ w0 ws, encodeCommand i = w0 :: ws ∧ commandLength w0 = (w0 :: ws).length
    else encodeCommand i = []

theorem CommandWords.clear (b : Fb) (color : Color) :
    CommandWords.Statement (.clear b color) := by
  intro cfg _
  refine ⟨_, _, rfl, ?_⟩
  unfold commandLength
  rw [opField_header, Opcode.ofCode_code]
  rfl

theorem CommandWords.putPixel (b : Fb) (x : Word) (y : Word) (color : Color) :
    CommandWords.Statement (.putPixel b x y color) := by
  intro cfg _
  refine ⟨_, _, rfl, ?_⟩
  unfold commandLength
  rw [opField_header, Opcode.ofCode_code]
  rfl

theorem CommandWords.drawChar (b : Fb) (x : Word) (y : Word) (ch : Byte) (scale : Byte) (fg : Color) (bg : Color) :
    CommandWords.Statement (.drawChar b x y ch scale fg bg) := by
  intro cfg _
  refine ⟨_, _, rfl, ?_⟩
  unfold commandLength
  rw [opField_header, Opcode.ofCode_code]
  rfl

theorem CommandWords.drawText (b : Fb) (x y : Word) (text : List Byte) (scale : Byte) (fg bg : Color) :
    CommandWords.Statement (.drawText b x y text scale fg bg) := by
  intro cfg h
  have h : text.length ≤ 255 := of_decide_eq_true h
  refine ⟨_, x :: y :: colorPair fg bg :: packChars text, rfl, ?_⟩
  unfold commandLength
  rw [opField_header, Opcode.ofCode_code]
  simp only [aLow_header, List.length_cons, packChars_length, BitVec.toNat_ofNat, charWords]
  omega

theorem CommandWords.fillRect (b : Fb) (x : Word) (y : Word) (w : Word) (h : Word) (color : Color) :
    CommandWords.Statement (.fillRect b x y w h color) := by
  intro cfg _
  refine ⟨_, _, rfl, ?_⟩
  unfold commandLength
  rw [opField_header, Opcode.ofCode_code]
  rfl

theorem CommandWords.drawBar (b : Fb) (x : Word) (y : Word) (w : Word) (h : Word) (percent : BitVec 16) (fg : Color) (bg : Color) (frame : Color) :
    CommandWords.Statement (.drawBar b x y w h percent fg bg frame) := by
  intro cfg _
  refine ⟨_, _, rfl, ?_⟩
  unfold commandLength
  rw [opField_header, Opcode.ofCode_code]
  rfl

theorem CommandWords.rotate90cw (src : Fb) (dst : Fb) :
    CommandWords.Statement (.rotate90cw src dst) := by
  intro cfg _
  refine ⟨_, _, rfl, ?_⟩
  unfold commandLength
  rw [opField_header, Opcode.ofCode_code]
  rfl

theorem CommandWords.setOrientation (mode : Byte) :
    CommandWords.Statement (.setOrientation mode) := by
  intro cfg _
  refine ⟨_, _, rfl, ?_⟩
  unfold commandLength
  rw [opField_header, Opcode.ofCode_code]
  rfl

theorem CommandWords.setTime (hour : Byte) (minute : Byte) (second : Byte) :
    CommandWords.Statement (.setTime hour minute second) := by
  intro cfg _
  refine ⟨_, _, rfl, ?_⟩
  unfold commandLength
  rw [opField_header, Opcode.ofCode_code]
  rfl

theorem CommandWords.heartbeat (hour : Byte) (minute : Byte) (second : Byte) :
    CommandWords.Statement (.heartbeat hour minute second) := by
  intro cfg _
  refine ⟨_, _, rfl, ?_⟩
  unfold commandLength
  rw [opField_header, Opcode.ofCode_code]
  rfl

theorem CommandWords.redraw (b : Fb) :
    CommandWords.Statement (.redraw b) := by
  intro cfg _
  refine ⟨_, _, rfl, ?_⟩
  unfold commandLength
  rw [opField_header, Opcode.ofCode_code]
  rfl

theorem CommandWords.pktOrient (mode : Byte) :
    CommandWords.Statement (.pktOrient mode) := fun _ _ => rfl

theorem CommandWords.pktTime (hour : Byte) (minute : Byte) (second : Byte) :
    CommandWords.Statement (.pktTime hour minute second) := fun _ _ => rfl

theorem CommandWords.pktHeartbeat (hour : Byte) (minute : Byte) (second : Byte) :
    CommandWords.Statement (.pktHeartbeat hour minute second) := fun _ _ => rfl

theorem CommandWords.pktStart (tail : HdrTail) (data : List Byte) :
    CommandWords.Statement (.pktStart tail data) := fun _ _ => rfl

theorem CommandWords.pktCont (seq : Byte) (tail : HdrTail) (data : List Byte) :
    CommandWords.Statement (.pktCont seq tail data) := fun _ _ => rfl

theorem CommandWords.pktEnd (seq : Byte) (tail : HdrTail) (data : List Byte) :
    CommandWords.Statement (.pktEnd seq tail data) := fun _ _ => rfl

theorem CommandWords.pktSingle (tail : HdrTail) (data : List Byte) :
    CommandWords.Statement (.pktSingle tail data) := fun _ _ => rfl

end Sys2Proof.Laws
end

