-- ==== Sys2Proof/Laws/Step.lean ====
section
/-!
SUPPORT. What each agent's turn can do, said once: a step is a turn, an engine's turn is the packet in `Emit`, a
wait, a rejected command or a decoded command.
-/

namespace Sys2Proof.Machine

/-- The engine's turn is a step in which `engineTurn` runs on the state without its own turn. -/
theorem step_of_engineMoves {s : State} {ts : List Turn} (h : EngineMoves s ts) :
    step s = engineTurn { s with turns := ts } := by
  unfold step
  rcases h with h | ⟨h, rfl, hr⟩
  · rw [h]
    rfl
  · rw [h]
    simp only [defaultTurn, hr, Option.isSome_none, Bool.false_eq_true, if_false]
    congr 1
    cases s
    simp_all

theorem engineTurn_emitting {s : State} {p : Packet} {job : Job} (h : s.engine = .emitting p job) :
    engineTurn s = exec p.toInstr s := by
  unfold engineTurn
  rw [h]

theorem engineTurn_idle {s : State} (h : s.engine = .idle) : engineTurn s = takeCommand s := by
  unfold engineTurn
  rw [h]

theorem takeCommand_responding {s : State} (h : s.response.isSome = true) : takeCommand s = .next s := by
  unfold takeCommand
  exact if_pos h

theorem takeCommand_waiting {s : State} (h : s.response = none) (hsp : splitCommand (s.words ++ s.port) = none) :
    takeCommand s = .next { s with words := s.words ++ s.port, port := [] } := by
  unfold takeCommand
  rw [if_neg (by rw [h]; simp), hsp]

theorem takeCommand_whole {s : State} {cmd rest : List Word} (h : s.response = none)
    (hsp : splitCommand (s.words ++ s.port) = some (cmd, rest)) :
    takeCommand s = runCommand cmd { s with words := cmd, port := rest } := by
  unfold takeCommand
  rw [if_neg (by rw [h]; simp), hsp]

theorem runCommand_ok {cmd : List Word} {i : Instr} (h : decodeCommand cmd = .ok i) (s : State) :
    runCommand cmd s = exec i s := by
  unfold runCommand
  rw [h]

theorem runCommand_error {cmd : List Word} {e : DecodeError} (h : decodeCommand cmd = .error e) (s : State) :
    runCommand cmd s = .next (rejectCommand s) := by
  unfold runCommand
  rw [h]

/-- The five ways an engine's turn goes. -/
theorem engineTurn_cases (s : State) :
    (∃ p job, s.engine = .emitting p job ∧ engineTurn s = exec p.toInstr s) ∨
    (s.engine = .idle ∧ s.response.isSome = true ∧ engineTurn s = .next s) ∨
    (s.engine = .idle ∧ s.response = none ∧ splitCommand (s.words ++ s.port) = none ∧
      engineTurn s = .next { s with words := s.words ++ s.port, port := [] }) ∨
    (∃ cmd rest e, s.engine = .idle ∧ s.response = none ∧ splitCommand (s.words ++ s.port) = some (cmd, rest) ∧
      decodeCommand cmd = .error e ∧
      engineTurn s = .next (rejectCommand { s with words := cmd, port := rest })) ∨
    (∃ cmd rest i, s.engine = .idle ∧ s.response = none ∧ splitCommand (s.words ++ s.port) = some (cmd, rest) ∧
      decodeCommand cmd = .ok i ∧ engineTurn s = exec i { s with words := cmd, port := rest }) := by
  have hen : s.engine = .idle ∨ ∃ p job, s.engine = .emitting p job := by cases s.engine <;> simp
  rcases hen with hi | ⟨p, job, hp⟩
  · refine .inr ?_
    rw [engineTurn_idle hi]
    by_cases hr : s.response.isSome = true
    · exact .inl ⟨hi, hr, takeCommand_responding hr⟩
    · have hn : s.response = none := by simpa using hr
      have hsp : splitCommand (s.words ++ s.port) = none ∨
          ∃ cmd rest, splitCommand (s.words ++ s.port) = some (cmd, rest) := by
        rcases splitCommand (s.words ++ s.port) with _ | ⟨cmd, rest⟩ <;> simp
      rcases hsp with hsp | ⟨cmd, rest, hsp⟩
      · exact .inr (.inl ⟨hi, hn, hsp, takeCommand_waiting hn hsp⟩)
      · cases hd : decodeCommand cmd with
        | error e =>
          refine .inr (.inr (.inl ⟨cmd, rest, e, hi, hn, hsp, hd, ?_⟩))
          rw [takeCommand_whole hn hsp, runCommand_error hd]
        | ok i =>
          refine .inr (.inr (.inr ⟨cmd, rest, i, hi, hn, hsp, hd, ?_⟩))
          rw [takeCommand_whole hn hsp, runCommand_ok hd]
  · exact .inl ⟨p, job, hp, engineTurn_emitting hp⟩

/-- A step that goes on is a host's turn, a sink's turn, the host's taking of a waiting response, or an engine's turn. -/
theorem step_cases {s t : State} (h : step s = .next t) :
    (∃ a ts, s.turns = .host a :: ts ∧ t = hostTurn a { s with turns := ts }) ∨
    (∃ a ts, s.turns = .sink a :: ts ∧ t = sinkTurn a { s with turns := ts }) ∨
    (s.turns = [] ∧ t = hostTake s) ∨
    (∃ ts, EngineMoves s ts ∧ engineTurn { s with turns := ts } = .next t) := by
  cases ht : s.turns with
  | nil =>
    by_cases hr : s.response.isSome = true
    · refine .inr (.inr (.inl ⟨rfl, ?_⟩))
      unfold step at h
      rw [ht] at h
      simp only [defaultTurn, hr, if_true, Host.Outcome.next.injEq] at h
      exact h.symm
    · have hm : EngineMoves s [] := .inr ⟨ht, rfl, by simpa using hr⟩
      exact .inr (.inr (.inr ⟨[], hm, by rw [← step_of_engineMoves hm, h]⟩))
  | cons u ts =>
    cases u with
    | engine =>
      have hm : EngineMoves s ts := .inl ht
      exact .inr (.inr (.inr ⟨ts, hm, by rw [← step_of_engineMoves hm, h]⟩))
    | host a =>
      unfold step at h
      rw [ht] at h
      simp only [takeTurn, Host.Outcome.next.injEq] at h
      exact .inl ⟨a, ts, rfl, h.symm⟩
    | sink a =>
      unfold step at h
      rw [ht] at h
      simp only [takeTurn, Host.Outcome.next.injEq] at h
      exact .inr (.inl ⟨a, ts, rfl, h.symm⟩)

/-- The `Emit` of a packet, as an instruction's meaning. -/
theorem exec_packet (p : Packet) (s : State) : exec p.toInstr s = .next (emit p s) := by
  cases p <;> rfl

/-- One step of any machine's run. -/
theorem coreRun_succ {M : Host.Core} {k : Nat} {s t : M.State} (h : M.step s = .next t) :
    M.run (k + 1) s = M.run k t := by
  rw [Host.Core.run, h]

/-- One step of a run. -/
theorem run_succ {k : Nat} {s t : State} (h : step s = .next t) : run (k + 1) s = run k t :=
  coreRun_succ (M := Sys2Proof.core) h

/-! ## The host's and the sink's turns -/

/-- The fields a host's taking of the response leaves alone (R69). -/
theorem hostTake_keeps (s : State) :
    (hostTake s).cfg = s.cfg ∧ (∀ b, (hostTake s).fb b = s.fb b) ∧ (hostTake s).status = s.status ∧
      (hostTake s).cursorX = s.cursorX ∧ (hostTake s).engine = s.engine ∧ (hostTake s).port = s.port ∧
      (hostTake s).answers = s.answers ∧ (hostTake s).turns = s.turns ∧ (hostTake s).emits = s.emits ∧
      (hostTake s).runStart = s.runStart := by
  unfold hostTake
  cases s.response with
  | none => exact ⟨rfl, fun _ => rfl, rfl, rfl, rfl, rfl, rfl, rfl, rfl, rfl⟩
  | some r => exact ⟨rfl, fun b => by cases b <;> rfl, rfl, rfl, rfl, rfl, rfl, rfl, rfl, rfl⟩

theorem hostTake_none {s : State} (h : s.response = none) : hostTake s = s := by
  unfold hostTake
  rw [h]

theorem hostTake_some {s : State} {r : Response} (h : s.response = some r) :
    hostTake s = { s with response := none, words := [], completed := s.completed ++ [⟨s.words, r⟩] } := by
  unfold hostTake
  rw [h]

@[simp] theorem hostReset_fb (s : State) (b : Fb) : (hostReset s).fb b = [] := by cases b <;> rfl
@[simp] theorem hostReset_status (s : State) : (hostReset s).status = 0 := rfl
@[simp] theorem hostReset_cursorX (s : State) : (hostReset s).cursorX = 0 := rfl
@[simp] theorem hostReset_engine (s : State) : (hostReset s).engine = .idle := rfl
@[simp] theorem hostReset_words (s : State) : (hostReset s).words = [] := rfl
@[simp] theorem hostReset_response (s : State) : (hostReset s).response = none := rfl
@[simp] theorem hostReset_cfg (s : State) : (hostReset s).cfg = s.cfg := rfl
@[simp] theorem hostReset_port (s : State) : (hostReset s).port = s.port := rfl
@[simp] theorem hostReset_emits (s : State) : (hostReset s).emits = s.emits ++ cutEmit s := rfl
@[simp] theorem hostReset_completed (s : State) : (hostReset s).completed = s.completed := rfl
@[simp] theorem hostReset_runStart (s : State) :
    (hostReset s).runStart = ⟨(s.emits ++ cutEmit s).length, s.completed.length⟩ := rfl

/-- Reset cuts off at most one `Emit` (R190). -/
theorem cutEmit_cases (s : State) :
    (s.engine = .idle ∧ cutEmit s = []) ∨
      ∃ p job, s.engine = .emitting p job ∧ cutEmit s = [⟨packetBytes s.cfg p, none⟩] := by
  unfold cutEmit
  cases s.engine with
  | idle => exact .inl ⟨rfl, rfl⟩
  | emitting p job => exact .inr ⟨p, job, rfl, rfl⟩

end Sys2Proof.Machine
end

