-- ==== Sys2Proof/Tests/Slice0.lean ====
section
/-!
SUPPORT. Tests of the model's own author: ill-formed terms refused, words written out from the spec's encodings, the
spec's worked vectors (spec/95_test_vectors.md, named by their labels), and one witness for the premises of each
statement that has any. Expected results are the spec's.
-/

namespace Sys2Proof.Tests

open Sys2Proof.Machine

/-! ## Test configurations -/

/-- The test glyph ROM TG: only `1` has a glyph. -/
def testRom : GlyphRom := ⟨(Vector.replicate 64 none).set 1 (some ⟨0x05, 0x02, 0x07, 0x00, 0x7F⟩)⟩

/-- The ROM of V-CHAR-7: bit 7 set in two columns. -/
def testRomBit7 : GlyphRom := ⟨(Vector.replicate 64 none).set 1 (some ⟨0x85, 0x02, 0x07, 0x00, 0xFF⟩)⟩

/-- A configuration with the default codes. -/
def smallConfig (w0 h0 w1 h1 chunk : Nat) : Config where
  w0 := w0
  h0 := h0
  w1 := w1
  h1 := h1
  chunk := chunk
  singleCode := .stop
  timeCode := 0xF3
  heartbeatCode := 0xF2
  hdrTail := []
  glyphRom := testRom

/-- TCFG. -/
def tcfg : Config := smallConfig 4 3 3 4 8

/-- TCFG2. -/
def tcfg2 : Config := smallConfig 8 4 4 8 16

/-- TCFG3, whose framebuffers are not transposed. -/
def tcfg3 : Config := smallConfig 4 3 4 3 8

/-- The 6 × 4 buffer of the rectangle and bar vectors. -/
def cfg6x4 : Config := smallConfig 6 4 4 6 8

/-- Both framebuffers cleared to 0, everything else as after reset. -/
def cleared (cfg : Config) : State :=
  { State.resetWith cfg with
    fb0 := clearCells (cfg.width .fb0) (cfg.height .fb0) 0
    fb1 := clearCells (cfg.width .fb1) (cfg.height .fb1) 0 }

/-- FB0 of TCFG holds the twelve values `a` to `l` of X3 as 1 to 12. -/
def lettered : State :=
  { cleared tcfg with fb0 := (List.range 12).map fun k => (k, BitVec.ofNat 16 (k + 1)) }

/-! ## One step -/

/-- Whether one engine's turn with these words in the port goes on to a state that meets `p`. -/
def runs (s : State) (words : List Word) (p : State → Bool) : Bool :=
  match step { s with port := words } with
  | .next t => p t
  | .fault _ => false
  | .refused _ => false

/-- Whether one instruction goes on to a state that meets `p`. -/
def execs (i : Instr) (s : State) (p : State → Bool) : Bool :=
  match exec i s with
  | .next t => p t
  | .fault _ => false
  | .refused _ => false

/-- The picture notation of the vectors, rows joined. -/
def cellChar : Option Color → Char
  | none => '?'
  | some c => if c = 0 then '.' else if c = 1 then '1' else if c = 2 then '2' else if c = 3 then '3' else '!'

/-- A framebuffer in picture notation. -/
def picture (s : State) (b : Fb) : List Char :=
  (Memory.cellsFrom 0 (s.cfg.width b * s.cfg.height b) (s.fb b)).map cellChar

/-- The cells of a framebuffer as numbers, 0 for an unwritten one. -/
def numbers (s : State) (b : Fb) : List Nat :=
  (Memory.cellsFrom 0 (s.cfg.width b * s.cfg.height b) (s.fb b)).map fun c => (c.map BitVec.toNat).getD 0

/-- A state shows a picture in FB0 and a response. -/
def shows (pic : String) (status cursor : Word) (t : State) : Bool :=
  picture t .fb0 == pic.toList && t.response == some ⟨status, cursor⟩

/-- A control command's `Emit` with an answer at hand. -/
def sending (p : Packet) (a : Answer) : State :=
  { cleared tcfg with engine := .emitting p .control, answers := [a] }

/-- A REDRAW of FB0 of TCFG in the `Emit` of packet `i`, with an answer at hand. -/
def redrawing (i : Nat) (a : Answer) : State :=
  { cleared tcfg with
    engine := .emitting (redrawPacket tcfg .fb0 (List.replicate 24 0) i (8 * i))
      (.redraw .fb0 i (8 * i) (List.replicate 24 0))
    answers := [a] }

/-- A REDRAW of FB0 in the `Emit` of its one packet, `C` = 32 (V-RD-4), with an answer at hand. -/
def redrawingSingle (a : Answer) : State :=
  { cleared (smallConfig 4 3 3 4 32) with
    engine := .emitting (redrawPacket (smallConfig 4 3 3 4 32) .fb0 (List.replicate 24 0) 0 0)
      (.redraw .fb0 0 0 (List.replicate 24 0))
    answers := [a] }

/-- A state shows one `Emit` event with these bytes and this answer. -/
def emitted (bytes : List Byte) (a : Answer) (t : State) : Bool := t.emits == [⟨bytes, some a⟩]

/-- Eight zero bytes, the data region of TCFG's packets. -/
def zeros8 : List Byte := List.replicate 8 0

/-! ## WellFormed refuses ill-formed terms -/

set_option maxRecDepth 4000 in
theorem test_wellFormed_text_255 :
    (Instr.drawText .fb0 0 0 (List.replicate 255 0x31) 1 1 2).wellFormed tcfg = true := by decide
set_option maxRecDepth 4000 in
theorem test_wellFormed_text_256 :
    (Instr.drawText .fb0 0 0 (List.replicate 256 0x31) 1 1 2).wellFormed tcfg = false := by decide
theorem test_wellFormed_start_data : (Instr.pktStart ⟨0, 0, 1, 0⟩ (List.replicate 7 0)).wellFormed tcfg = false := by
  decide
theorem test_wellFormed_single_data : (Instr.pktSingle ⟨0, 0, 1, 0⟩ (List.replicate 9 0)).wellFormed tcfg = false := by
  decide
theorem test_wellFormed_cont_seq : (Instr.pktCont 1 ⟨1, 0, 1, 0⟩ zeros8).wellFormed tcfg = false := by decide
theorem test_wellFormed_cont_data : (Instr.pktCont 2 ⟨1, 0, 1, 0⟩ []).wellFormed tcfg = false := by decide
theorem test_wellFormed_end_seq : (Instr.pktEnd 0 ⟨1, 0, 1, 0⟩ zeros8).wellFormed tcfg = false := by decide
theorem test_wellFormed_end_data :
    (Instr.pktEnd 3 ⟨2, 0, 1, 0⟩ (List.replicate 9 0)).wellFormed tcfg = false := by decide
theorem test_wellFormed_cont_good : (Instr.pktCont 2 ⟨1, 0, 1, 0⟩ zeros8).wellFormed tcfg = true := by decide

/-! ## Words written out from the encodings (R61 to R63), and the table's own word for each row -/

theorem test_decode_clear : decodeTableWord 32 0x001F0001 = some (.clear .fb0 0x001F) := by decide
theorem test_decode_putPixel :
    decodeTableWord 96 0x00000003_FFFFFFFF_FFFF0102 = some (.putPixel .fb1 0xFFFFFFFF 3 0xFFFF) := by decide
theorem test_decode_drawChar : decodeTableWord 128 0x00020001_00000000_00000001_01310003 =
    some (.drawChar .fb0 1 0 0x31 1 0x0001 0x0002) := by decide
theorem test_decode_drawText : decodeTableWord 160 0x00005A31_00020001_FFFFFFFD_00000000_01020004 =
    some (.drawText .fb0 0 0xFFFFFFFD [0x31, 0x5A] 1 0x0001 0x0002) := by decide
theorem test_decode_fillRect : decodeTableWord 160 0x00000003_00000004_FFFFFFFF_FFFFFFFE_00010005 =
    some (.fillRect .fb0 0xFFFFFFFE 0xFFFFFFFF 4 3 0x0001) := by decide
theorem test_decode_drawBar :
    decodeTableWord 224 0x00001111_0000FFFF_00000003_00000004_00000002_00000001_00320006 =
      some (.drawBar .fb0 1 2 4 3 50 0xFFFF 0x0000 0x1111) := by decide
theorem test_decode_rotate90cw : decodeTableWord 32 0x00000107 = some (.rotate90cw .fb1 .fb0) := by decide
theorem test_decode_setOrientation : decodeTableWord 32 0x00FF0010 = some (.setOrientation 0xFF) := by decide
theorem test_decode_setTime : decodeTableWord 64 0x00000007_3B170011 = some (.setTime 23 59 7) := by decide
theorem test_decode_heartbeat : decodeTableWord 64 0x00000038_220C0012 = some (.heartbeat 12 34 56) := by decide
theorem test_decode_redraw : decodeTableWord 32 0x00000120 = some (.redraw .fb1) := by decide

theorem test_encode_drawBar : encodeCommand (.drawBar .fb0 0 0 4 3 50 0xFFFF 0x0000 0x1111) =
    [0x00320006, 0, 0, 4, 3, 0x0000FFFF, 0x00001111] := by decide
theorem test_encode_drawText : encodeCommand (.drawText .fb0 0 0 [0x31, 0x31, 0x31, 0x31, 0x31] 1 1 2) =
    [0x01050004, 0, 0, 0x00020001, 0x31313131, 0x00000031] := by decide

/-- X7: a string of no characters takes no character word. -/
theorem test_decode_empty_text :
    decodeCommand [0x03000004, 5, 0, 0x00020001] = .ok (.drawText .fb0 5 0 [] 3 1 2) := by decide
/-- R60: a byte-serial port sends each word least significant byte first. -/
theorem test_wordsOfBytes : wordsOfBytes [0x01, 0x00, 0x1F, 0x00, 0x20] = [0x001F0001] := by decide

theorem test_decode_pktOrient : decodePacket tcfg ([0x55, 0xA1, 0xF1, 0x01, 0, 0, 0, 0] ++ zeros8) =
    .ok (.orient 1) := by decide
theorem test_decode_pktTime : decodePacket tcfg ([0x55, 0xA1, 0xF3, 0x17, 0x3B, 0x07, 0, 0] ++ zeros8) =
    .ok (.time 23 59 7) := by decide
theorem test_decode_pktHeartbeat : decodePacket tcfg ([0x55, 0xA1, 0xF2, 0x0C, 0x22, 0x38, 0, 0] ++ zeros8) =
    .ok (.heartbeat 12 34 56) := by decide
theorem test_decode_pktStart : decodePacket tcfg ([0x55, 0xA3, 0xF0, 1, 0, 0, 1, 0] ++ zeros8) =
    .ok (.start ⟨0, 0, 1, 0⟩ zeros8) := by decide
theorem test_decode_pktCont : decodePacket tcfg ([0x55, 0xA3, 0xF1, 2, 1, 0, 1, 0] ++ zeros8) =
    .ok (.cont 2 ⟨1, 0, 1, 0⟩ zeros8) := by decide
theorem test_decode_pktEnd : decodePacket tcfg ([0x55, 0xA3, 0xF2, 3, 2, 0, 1, 0] ++ zeros8) =
    .ok (.last 3 ⟨2, 0, 1, 0⟩ zeros8) := by decide
theorem test_decode_pktSingle : decodePacket tcfg ([0x55, 0xA3, 0xF2, 1, 0, 0, 0, 0] ++ zeros8) =
    .ok (.single ⟨0, 0, 0, 0⟩ zeros8) := by decide
theorem test_decode_packet_rejects :
    decodePacket tcfg [0x55, 0xA1] = .error .packetLength ∧
    decodePacket tcfg ([0x54, 0xA1, 0xF1, 1, 0, 0, 0, 0] ++ zeros8) = .error .packetKind ∧
    decodePacket tcfg ([0x55, 0xA2, 0xF1, 1, 0, 0, 0, 0] ++ zeros8) = .error .packetKind ∧
    decodePacket tcfg ([0x55, 0xA3, 0xF3, 1, 0, 0, 0, 0] ++ zeros8) = .error .packetKind ∧
    decodePacket tcfg ([0x55, 0xA1, 0xF1, 1, 0, 0, 0, 9] ++ zeros8) = .error .packetField := by decide

/-! ## Renderer vectors -/

/-- V-CLR-1. -/
theorem test_clear : runs (State.resetWith tcfg) [0x001F0001] (fun t =>
    numbers t .fb0 == List.replicate 12 0x1F && t.fb1 == [] && t.response == some ⟨0, 0⟩) = true := by decide

/-- V-PIX-1. -/
theorem test_putPixel : runs (cleared tcfg) [0xF8000002, 1, 2] (fun t =>
    numbers t .fb0 == List.replicate 9 0 ++ [0xF800, 0, 0] && t.response == some ⟨0, 0⟩) = true := by decide
/-- X5: no wraparound into the next row. -/
theorem test_putPixel_clips : runs (cleared tcfg) [0xFFFF0002, 4, 0] (fun t =>
    t.fb0 == (cleared tcfg).fb0 && t.response == some ⟨0, 0⟩) = true := by decide

/-- V-CHAR-1. -/
theorem test_drawChar : runs (cleared tcfg2) [0x01310003, 1, 0, 0x00020001]
    (shows ".121212..211212..121212..222212." 0 7) = true := by decide
/-- V-CHAR-2: scale 2. -/
theorem test_drawChar_scale : runs (cleared tcfg2) [0x02310003, 0, 0, 0x00020001]
    (shows "11221122112211222211112222111122" 0 12) = true := by decide

set_option maxRecDepth 4000 in
/-- V-TEXT-2. -/
theorem test_drawText : runs (cleared tcfg2) [0x01020004, 0xFFFFFFFA, 0, 0x00020001, 0x00003131]
    (shows "121212..211212..121212..222212.." 0 6) = true := by decide
set_option maxRecDepth 4000 in
/-- V-TEXT-3. -/
theorem test_drawText_unsupported : runs (cleared tcfg2) [0x01020004, 0, 0xFFFFFFFD, 0x00020001, 0x00005A31]
    (shows "22221222222212222222122222221222" 0 12) = true := by decide

/-- V-RECT-3. -/
theorem test_fillRect : runs (cleared cfg6x4) [0x00010005, 2, 1, 10, 10]
    (shows "........1111..1111..1111" 0 0) = true := by decide
/-- V-RECT-8: a huge width, exactly. -/
theorem test_fillRect_huge : runs (cleared cfg6x4) [0x00010005, 0, 0, 0x7FFFFFFF, 1]
    (shows "111111.................." 0 0) = true := by decide

/-- V-BAR-9. -/
theorem test_drawBar : runs (cleared cfg6x4) [0x00320006, 0, 0, 6, 4, 0x00020001, 0x00000003]
    (shows "333333311223311223333333" 0 0) = true := by decide
/-- V-BAR-14: the left border is clipped away. -/
theorem test_drawBar_clips : runs (cleared cfg6x4) [0x00640006, 0xFFFFFFFF, 0, 6, 4, 0x00020001, 0x00000003]
    (shows "33333.11113.11113.33333." 0 0) = true := by decide

/-- The BarFill table of the bar vectors. -/
theorem test_barFill : [barFill 50 1, barFill 25 2, barFill 50 3, barFill 49 3, barFill 17 3, barFill 83 3, barFill 33 4,
    barFill 12 4, barFill 34 6, barFill 83 6, barFill 99 200, barFill 1 50, barFill (-7) 4, barFill 150 4, barFill 50 0]
      = [1, 1, 2, 1, 1, 2, 1, 0, 2, 5, 198, 1, 0, 4, 0] := by decide

/-- V-ROT-1. -/
theorem test_rotate90cw : runs lettered [0x00000207] (fun t =>
    numbers t .fb1 == [9, 5, 1, 10, 6, 2, 11, 7, 3, 12, 8, 4] && t.fb0 == lettered.fb0 &&
      t.response == some ⟨0, 0⟩) = true := by decide
/-- V-ROT-5: dimensions that are not transposed. -/
theorem test_rotate90cw_geometry : runs (cleared tcfg3) [0x00000207] (fun t =>
    t.fb0 == (cleared tcfg3).fb0 && t.fb1 == (cleared tcfg3).fb1 && t.response == some ⟨4, 0⟩) = true := by decide

/-! ## Protocol vectors -/

/-- V-CTL-1: the packet goes to the sink. -/
theorem test_setOrientation : runs (cleared tcfg) [0x00010010] (fun t =>
    t.engine == .emitting (.orient 1) .control && t.response == none) = true := by decide
/-- V-CTL-3. -/
theorem test_setTime : runs (cleared tcfg) [0x3B170011, 0x00000007] (fun t =>
    t.engine == .emitting (.time 23 59 7) .control) = true := by decide
/-- V-CTL-6: ignored bits. -/
theorem test_heartbeat : runs (cleared tcfg) [0x220C0012, 0xFFFFFF38] (fun t =>
    t.engine == .emitting (.heartbeat 12 34 56) .control) = true := by decide
/-- V-CTL-7: a control packet fails with index 0. -/
theorem test_pktOrient_fails : execs (.pktOrient 1) (sending (.orient 1) .fail) (fun t =>
    emitted ([0x55, 0xA1, 0xF1, 1, 0, 0, 0, 0] ++ zeros8) .fail t && t.response == some ⟨3, 0⟩) = true := by decide
/-- V-CTL-3. -/
theorem test_pktTime : execs (.pktTime 23 59 7) (sending (.time 23 59 7) .ok) (fun t =>
    emitted ([0x55, 0xA1, 0xF3, 0x17, 0x3B, 0x07, 0, 0] ++ zeros8) .ok t && t.response == some ⟨0, 0⟩) = true := by
  decide
/-- V-CTL-4. -/
theorem test_pktHeartbeat : execs (.pktHeartbeat 12 34 56) (sending (.heartbeat 12 34 56) .ok) (fun t =>
    emitted ([0x55, 0xA1, 0xF2, 0x0C, 0x22, 0x38, 0, 0] ++ zeros8) .ok t && t.response == some ⟨0, 0⟩) = true := by
  decide

/-- V-RD-1 and V-PACK-1: packet 0, and P1's frame with `00 F8` at bytes 18 and 19. -/
theorem test_redraw : runs { cleared tcfg with fb0 := (cleared tcfg).fb0.write 9 0xF800 } [0x00000020] (fun t =>
    t.engine == .emitting (.start ⟨0, 0, 1, 0⟩ zeros8)
      (.redraw .fb0 0 0 (List.replicate 18 0 ++ [0x00, 0xF8, 0, 0, 0, 0]))) = true := by decide
/-- V-RD-10: an unwritten framebuffer. -/
theorem test_redraw_unwritten : exec (.redraw .fb0) (State.resetWith tcfg) = .fault .unwrittenPixel := by rfl
/-- V-RD-1: packet 0 goes out, packet 1 follows. -/
theorem test_pktStart : execs (.pktStart ⟨0, 0, 1, 0⟩ zeros8) (redrawing 0 .ok) (fun t =>
    emitted ([0x55, 0xA3, 0xF0, 1, 0, 0, 1, 0] ++ zeros8) .ok t && t.response == none &&
      t.engine == .emitting (.cont 2 ⟨1, 0, 1, 0⟩ zeros8) (.redraw .fb0 1 8 (List.replicate 24 0))) = true := by decide
/-- V-RD-7: packet 1 fails. -/
theorem test_pktCont_fails : execs (.pktCont 2 ⟨1, 0, 1, 0⟩ zeros8) (redrawing 1 .fail) (fun t =>
    emitted ([0x55, 0xA3, 0xF1, 2, 1, 0, 1, 0] ++ zeros8) .fail t && t.engine == .idle &&
      t.response == some ⟨0x00000103, 0⟩) = true := by decide
/-- V-RD-1: the last packet ends the command. -/
theorem test_pktEnd : execs (.pktEnd 3 ⟨2, 0, 1, 0⟩ zeros8) (redrawing 2 .ok) (fun t =>
    emitted ([0x55, 0xA3, 0xF2, 3, 2, 0, 1, 0] ++ zeros8) .ok t && t.response == some ⟨0, 0⟩) = true := by decide
/-- V-RD-4: a one-packet frame, `C` = 32. -/
theorem test_pktSingle : execs (.pktSingle ⟨0, 0, 0, 0⟩ (List.replicate 32 0)) (redrawingSingle .ok) (fun t =>
    emitted ([0x55, 0xA3, 0xF2, 1, 0, 0, 0, 0] ++ List.replicate 32 0) .ok t && t.response == some ⟨0, 0⟩) = true := by
  decide
/-- V-RD-5: SINGLE_CODE = START. -/
theorem test_pktSingle_start : packetBytes { tcfg with singleCode := .start } (.single ⟨0, 0, 1, 0⟩ zeros8) =
    [0x55, 0xA3, 0xF0, 1, 0, 0, 1, 0] ++ zeros8 := by decide
/-- V-RD-2: a short last packet, `C` = 10. -/
theorem test_short_last_packet : packetBytes (smallConfig 4 3 3 4 10)
    (redrawPacket (smallConfig 4 3 3 4 10) .fb0 (List.replicate 24 7) 2 20) =
      [0x55, 0xA3, 0xF2, 3, 2, 0, 0, 0, 7, 7, 7, 7, 0, 0, 0, 0, 0, 0] := by decide
/-- X2: the headers of packets 25 and 26 of the default frame. -/
theorem test_default_headers :
    (hdrTail (smallConfig 170 320 320 170 4096) 25 102400 4096, planLen (smallConfig 170 320 320 170 4096) .fb1 26,
      hdrTail (smallConfig 170 320 320 170 4096) 26 106496 2304) =
    ((⟨0x19, 0, 1, 0⟩, 2304, ⟨0x1A, 0, 0, 0⟩) : HdrTail × Nat × HdrTail) := by decide
/-- The construction checks: 1020 cells with `C` = 8 are accepted, 1024 are not. -/
theorem test_construct : configValid (smallConfig 1020 1 1 1020 8) = true ∧
    configValid (smallConfig 1024 1 1 1024 8) = false ∧
    configValid (smallConfig 170 320 1024 1024 4096) = false := by decide

/-! ## Decoder, port, host and reset -/

/-- V-ILL-7: a rejected DRAW_TEXT takes its six words. -/
theorem test_illegal_takes_length : runs (cleared tcfg) [0x01050404, 1, 2, 3, 4, 5, 0x001F0001] (fun t =>
    t.port == [0x001F0001] && t.fb0 == (cleared tcfg).fb0 && t.response == some ⟨1, 0⟩) = true := by decide
/-- V-ILL-3: a reserved OP takes one word. -/
theorem test_reserved_takes_one : runs (cleared tcfg) [0x12345608, 0x001F0001] (fun t =>
    t.port == [0x001F0001] && t.response == some ⟨1, 0⟩) = true := by decide
/-- V-ILL-4, 5, 8 to 12. -/
theorem test_illegal_words :
    [[0x00000401], [0x00000201], [0x00010110], [0x01000010], [0x00010120], [0x00010007], [0x00000311, 0]].all
      (fun ws => runs (cleared tcfg) ws fun t => t.response == some ⟨1, 0⟩) = true := by decide
/-- R60: two of PUT_PIXEL's three words, and the engine waits. -/
theorem test_missing_words : runs (cleared tcfg) [0xF8000002, 1] (fun t =>
    t.words == [0xF8000002, 1] && t.port == [] && t.response == none) = true := by decide
/-- R190: reset in the middle of a REDRAW. -/
theorem test_reset_mid_emit :
    (match step { redrawing 1 .ok with turns := [.host .reset], cursorX := 9 } with
      | .next t => t.engine == .idle && t.fb0 == [] && t.cursorX == 0 && t.response == none
      | .fault _ => false
      | .refused _ => false) = true := by decide

/-! ## The assembler -/

/-- P1's three lines. -/
theorem test_assemble_p1 :
    assemble ["CLEAR     fb0, 0x0000            ; x".toList, "PUT_PIXEL fb0, 1, 2, 0xF800".toList,
      "REDRAW    fb0".toList] = some [0x00000001, 0xF8000002, 1, 2, 0x00000020] := by decide
/-- P4's string and directive. -/
theorem test_assemble_p4 :
    assemble ["DRAW_TEXT   fb0, 0, -3, \"1Z\", 1, 0x0001, 0x0002".toList, ".word       0x00000000".toList] =
      some [0x01020004, 0, 0xFFFFFFFD, 0x00020001, 0x00005A31, 0] := by decide
/-- R74: a framebuffer other than fb0 or fb1, and a color above 0xFFFF. -/
theorem test_assemble_refuses :
    assembleLine "CLEAR fb2, 0".toList = none ∧ assembleLine "CLEAR fb0, 0x10000".toList = none := by decide
/-- R75. -/
theorem test_assemble_timeOrHeartbeat :
    assembleLine "TIME_OR_HEARTBEAT 0, 12, 34, 56".toList = some [0x220C0012, 0x00000038] := by decide

/-! ## Witnesses: for each statement with premises, a state and operands that meet all of them together -/

/-- A string of 255 characters, the longest. -/
def longText : List Byte := List.replicate 255 0x31

set_option maxRecDepth 4000 in
theorem witness_CommandDecodeEncode : (Instr.drawText .fb1 0 0 longText 0 1 2).isCommand = true ∧
    (Instr.drawText .fb1 0 0 longText 0 1 2).wellFormed tcfg = true := by decide
theorem witness_StreamSplitsAfterCommand : (Instr.drawText .fb1 0 0 [] 0 1 2).isCommand = true ∧
    (Instr.drawText .fb1 0 0 [] 0 1 2).wellFormed tcfg = true := by decide
theorem witness_DecodedCommandIsWellFormed : decodeCommand [0x00000107] = .ok (.rotate90cw .fb1 .fb0) := by decide

/-- A word for each clause, DRAW_TEXT at `n` = 0 and 255, and reserved OP values next to the defined ones. -/
theorem witness_CommandLengthFromHeader :
    [commandLength 0x01, commandLength 0x07, commandLength 0x10, commandLength 0x20, commandLength 0x11, commandLength 0x12,
      commandLength 0x02, commandLength 0x03, commandLength 0x00000004, commandLength 0x00FF0004, commandLength 0x05,
      commandLength 0x06, commandLength 0x00, commandLength 0x08, commandLength 0x21, commandLength 0xFF] =
    [1, 1, 1, 1, 2, 2, 3, 4, 4, 68, 5, 7, 1, 1, 1, 1] := by decide
theorem witness_ReservedOpcodesRejected :
    [0x00, 0x08, 0x0F, 0x13, 0x1F, 0x21, 0xFF].all (fun v => decodeCommand [v] == .error .reservedOpcode) = true := by
  decide
/-- A header word for each way to break a fixed field. -/
theorem witness_FixedFieldViolationsRejected :
    opField 0x80000401 = Opcode.clear.code ∧ opField 0x00000201 = Opcode.clear.code ∧
    opField 0x80000007 = Opcode.rotate90cw.code ∧ opField 0x00010020 = Opcode.redraw.code ∧
    opField 0x01000010 = Opcode.setOrientation.code ∧ opField 0x00000111 = Opcode.setTime.code ∧
    decodeCommand [0x80000401] = .error (.fixedField .clear) ∧
    decodeCommand [0x00000201] = .error (.fixedField .clear) ∧
    decodeCommand [0x80000007] = .error (.fixedField .rotate90cw) ∧
    decodeCommand [0x00010020] = .error (.fixedField .redraw) ∧
    decodeCommand [0x01000010] = .error (.fixedField .setOrientation) ∧
    decodeCommand [0x00000111, 0] = .error (.fixedField .setTime) := by decide
theorem witness_IgnoredBitsDoNotMatter :
    ((opField 0x00000006).toNat = 0x06 ∧
      (0x00000003 : Word).extractLsb' 0 16 = (0xFFFF0003 : Word).extractLsb' 0 16) ∧
    ((opField 0x00000011).toNat = 0x11 ∧
      (0x00000007 : Word).extractLsb' 0 8 = (0xFFFFFF07 : Word).extractLsb' 0 8) ∧
    ((opField 0x00010004).toNat = 0x04 ∧ [(0x00000031 : Word)].length = [(0xFFFFFF31 : Word)].length ∧
      ∀ k, k < ((0x00010004 : Word).extractLsb' 16 8).toNat →
        ([(0x00000031 : Word)][k / 4]?).map (fun v => v.extractLsb' (8 * (k % 4)) 8) =
          ([(0xFFFFFF31 : Word)][k / 4]?).map (fun v => v.extractLsb' (8 * (k % 4)) 8)) := by decide

/-- TCFG cleared, with words in the port. -/
def offered (words : List Word) : State := { cleared tcfg with port := words }

/-- TCFG cleared, in the `Emit` of the control packet with mode 1, without an answer. -/
def stalled : State := { cleared tcfg with engine := .emitting (.orient 1) .control }

/-- TCFG cleared, with a response waiting and a word in the port. -/
def responding (turns : List Turn) : State :=
  { offered [0x00000001] with response := some ⟨0, 0⟩, words := [0x00000007], turns := turns }

theorem witness_StepRunsDecodedCommand :
    EngineMoves { offered [0x00000001, 0x20] with turns := [.engine, .host .take] } [.host .take] ∧
    EngineMoves (offered [0x00000001, 0x20]) [] ∧
    (offered [0x00000001, 0x20]).engine = .idle ∧ (offered [0x00000001, 0x20]).response = none ∧
    splitCommand ((offered [0x00000001, 0x20]).words ++ (offered [0x00000001, 0x20]).port) =
      some ([0x00000001], [0x20]) ∧
    decodeCommand [0x00000001] = .ok (.clear .fb0 0) :=
  ⟨.inl rfl, .inr ⟨rfl, rfl, rfl⟩, rfl, rfl, by decide, by decide⟩
theorem witness_StepRunsPacketInEmit :
    EngineMoves stalled [] ∧ stalled.engine = .emitting (.orient 1) .control := ⟨.inr ⟨rfl, rfl, rfl⟩, rfl⟩
theorem witness_IllegalCommandOnlyReports :
    EngineMoves (offered [0x00000402, 0, 0, 1]) [] ∧ (offered [0x00000402, 0, 0, 1]).engine = .idle ∧
    (offered [0x00000402, 0, 0, 1]).response = none ∧
    splitCommand ((offered [0x00000402, 0, 0, 1]).words ++ (offered [0x00000402, 0, 0, 1]).port) =
      some ([0x00000402, 0, 0], [1]) ∧
    decodeCommand [0x00000402, 0, 0] = .error (.fixedField .putPixel) :=
  ⟨.inr ⟨rfl, rfl, rfl⟩, rfl, rfl, by decide, by decide⟩
theorem witness_EngineWaitsForMissingWords :
    EngineMoves (offered [0x00000002, 0]) [] ∧ (offered [0x00000002, 0]).engine = .idle ∧
    (offered [0x00000002, 0]).response = none ∧
    splitCommand ((offered [0x00000002, 0]).words ++ (offered [0x00000002, 0]).port) = none :=
  ⟨.inr ⟨rfl, rfl, rfl⟩, rfl, rfl, by decide⟩
/-- A response waiting, and an `Emit` in progress, each at an engine's turn and at an offered word. -/
theorem witness_NoCommandBeforeResponseTaken :
    ((responding [.host (.offer 5)]).response ≠ none ∧
      (∀ ts, (responding [.host (.offer 5)]).turns ≠ .host .reset :: ts) ∧
      ∃ t, step (responding [.host (.offer 5)]) = .next t) ∧
    (stalled.engine ≠ .idle ∧ (∀ ts, stalled.turns ≠ .host .reset :: ts) ∧ ∃ t, step stalled = .next t) :=
  ⟨⟨by decide, (by intro ts h; cases h), _, rfl⟩, by decide, (by intro ts h; cases h), _, rfl⟩
theorem witness_HostTakesResponse :
    (responding [.host .take]).response = some ⟨0, 0⟩ ∧ (responding [.host .take]).turns = .host .take :: [] ∧
    (responding []).response = some ⟨0, 0⟩ ∧ (responding []).turns = [] := ⟨rfl, rfl, rfl, rfl⟩

/-- An offer to an idle block and to one in an `Emit`, an answer, and a take with nothing to take. -/
theorem witness_HostOffersAndSinkAnswers :
    { cleared tcfg with turns := [.host (.offer 7)] }.turns = .host (.offer 7) :: [] ∧
    { stalled with turns := [.host (.offer 7)] }.turns = .host (.offer 7) :: [] ∧
    { stalled with turns := [.sink .fail] }.turns = .sink .fail :: [] ∧
    { cleared tcfg with turns := [.host .take] }.turns = .host .take :: [] ∧
    { cleared tcfg with turns := [.host .take] }.response = none := ⟨rfl, rfl, rfl, rfl, rfl⟩

theorem witness_ClearFillsFramebuffer :
    ((cleared tcfg).fb .fb0).within ((cleared tcfg).cfg.width .fb0 * (cleared tcfg).cfg.height .fb0) := by decide
theorem witness_UnsupportedCharIsBackground : glyphRomLookup (cleared tcfg).cfg.glyphRom 0x5A = none ∧
    glyphRomLookup (cleared tcfg).cfg.glyphRom 0 = none ∧ glyphRomLookup (cleared tcfg).cfg.glyphRom 0xFF = none := by
  decide
/-- Codes at the edges of the supported ranges and next to them, and the glyph of `1`. -/
theorem witness_GlyphColumnsOfSupportedCodes :
    ([0x30, 0x39, 0x41, 0x5A, 0x61, 0x7A, 0x3A, 0x20].map glyphSlot =
      [some 0, some 9, some 10, some 35, some 36, some 61, some 62, some 63]) ∧
    ([0x2F, 0x3B, 0x40, 0x5B, 0x60, 0x7B, 0x1F, 0x21, 0x00, 0xFF].map glyphSlot = List.replicate 10 none) ∧
    glyphRomLookup tcfg.glyphRom 0x31 = some ⟨0x05, 0x02, 0x07, 0x00, 0x7F⟩ ∧
    ((63 : Nat) < 64 ∧ glyphSlot 0x20 = some 63) ∧
    (∀ ch : Byte, glyphSlot ch = none → (if ch = 0x31 then some blankGlyph else none) = none) ∧
    glyphRomLookup tcfg.glyphRom 0x5A = none := by decide
theorem witness_TextIsItsCharacters :
    (0x00000004 : Word).toInt = (0xFFFFFFFE : Word).toInt + 6 * (1 : Byte).toNat * [(0x31 : Byte)].length := by decide
/-- Both signs of `w`, and a percent below, in and above the range, at its ends too. -/
theorem witness_BarFillRoundsHalfUp : (0 : Int) ≤ 0 ∧ (0 : Int) < 1 ∧
    ((0 : Int) = 0 ∧ (0 : Int) ≤ 0 ∧ (0 : Int) ≤ 100) ∧ ((100 : Int) = 100 ∧ (0 : Int) ≤ 100 ∧ (100 : Int) ≤ 100) ∧
    ((0 : Int) = 0 ∧ (-1 : Int) < 0) ∧ ((100 : Int) = 100 ∧ (100 : Int) < 101) := by decide
theorem witness_RotateCopiesClockwise : Fb.fb0 ≠ Fb.fb1 ∧ lettered.cfg.width .fb1 = lettered.cfg.height .fb0 ∧
    lettered.cfg.height .fb1 = lettered.cfg.width .fb0 ∧
    (lettered.fb .fb1).within (lettered.cfg.width .fb1 * lettered.cfg.height .fb1) := by decide
theorem witness_RotateRefusesGeometry :
    (cleared tcfg3).cfg.width .fb1 ≠ (cleared tcfg3).cfg.height .fb0 ∧
    (cleared (smallConfig 4 3 3 5 8)).cfg.height .fb1 ≠ (cleared (smallConfig 4 3 3 5 8)).cfg.width .fb0 := by decide
theorem witness_TwoRotationsTurnHalf : Fb.fb0 ≠ Fb.fb1 ∧ lettered.cfg.width .fb1 = lettered.cfg.height .fb0 ∧
    lettered.cfg.height .fb1 = lettered.cfg.width .fb0 := by decide
theorem witness_FourRotationsRestore : Fb.fb0 ≠ Fb.fb1 ∧ lettered.cfg.width .fb1 = lettered.cfg.height .fb0 ∧
    lettered.cfg.height .fb1 = lettered.cfg.width .fb0 ∧ (lettered.fb .fb0).wf ∧
    (lettered.fb .fb0).within (lettered.cfg.width .fb0 * lettered.cfg.height .fb0) := by decide
theorem witness_RendererResponseIgnoresPixels : isRenderer (.rotate90cw .fb0 .fb1) = true := by decide

theorem witness_SetOrientationSendsPacket : (sending (.orient 1) .fail).answers = .fail :: [] ∧
    (3 : Word) = (if Answer.fail = .ok then 0 else 3) := by decide
theorem witness_SetTimeSendsPacket : (sending (.time 25 0 0) .ok).answers = .ok :: [] ∧
    (0 : Word) = (if Answer.ok = .ok then 0 else 3) := by decide
theorem witness_HeartbeatSendsPacket : (sending (.heartbeat 1 2 3) .ok).answers = .ok :: [] ∧
    (0 : Word) = (if Answer.ok = .ok then 0 else 3) := by decide

theorem allWritten_lettered : AllWritten lettered .fb0 := by
  have h : ∀ x < 4, ∀ y < 3, ((lettered.fb .fb0).cell 4 x y).isSome = true := by decide
  exact fun x y hx hy => h x hx y hy
theorem witness_RedrawStartsWithFrame : 0 < 2 * lettered.cfg.width .fb0 * lettered.cfg.height .fb0 ∧
    2 * lettered.cfg.width .fb0 * lettered.cfg.height .fb0 ≤ 255 * lettered.cfg.chunk ∧ (lettered.fb .fb0).wf ∧
    AllWritten lettered .fb0 := ⟨by decide, by decide, by decide, allWritten_lettered⟩
theorem witness_RedrawOfUnwrittenFaults :
    0 < 2 * (State.resetWith tcfg).cfg.width .fb0 * (State.resetWith tcfg).cfg.height .fb0 ∧
    2 * (State.resetWith tcfg).cfg.width .fb0 * (State.resetWith tcfg).cfg.height .fb0 ≤
      255 * (State.resetWith tcfg).cfg.chunk ∧
    ((State.resetWith tcfg).fb .fb0).wf ∧ ¬ AllWritten (State.resetWith tcfg) .fb0 :=
  ⟨by decide, by decide, by decide, fun h => absurd (h 0 0 (by decide) (by decide)) (by decide)⟩
/-- A frame of no bytes, one of 2048 bytes over `255·8`, and one of 2040 bytes that is just valid. -/
theorem witness_RedrawRefusesFrameSize :
    2 * (smallConfig 0 1 1 1 8).width .fb0 * (smallConfig 0 1 1 1 8).height .fb0 = 0 ∧
    255 * (smallConfig 1024 1 1 1 8).chunk < 2 * (smallConfig 1024 1 1 1 8).width .fb0 *
      (smallConfig 1024 1 1 1 8).height .fb0 ∧
    configValid (smallConfig 1020 1 1 1020 8) = true ∧
    (configValid (redrawing 2 .fail).cfg = true ∧ (redrawing 2 .fail).response = none ∧
      execs (.pktEnd 3 ⟨2, 0, 1, 0⟩ zeros8) (redrawing 2 .fail) (fun t => t.response == some ⟨0x203, 0⟩) = true) := by
  decide
/-- Packet 2, the last and short one, of a 24-byte frame with `C` = 10 (V-RD-2). -/
theorem witness_RedrawPacketBytes :
    (List.replicate 24 (7 : Byte)).length =
      2 * (smallConfig 4 3 3 4 10).width .fb0 * (smallConfig 4 3 3 4 10).height .fb0 ∧
    0 < (smallConfig 4 3 3 4 10).chunk ∧ 0 < (List.replicate 24 (7 : Byte)).length ∧
    (List.replicate 24 (7 : Byte)).length ≤ 255 * (smallConfig 4 3 3 4 10).chunk ∧
    3 = ((List.replicate 24 (7 : Byte)).length + (smallConfig 4 3 3 4 10).chunk - 1) / (smallConfig 4 3 3 4 10).chunk ∧
    2 < 3 ∧
    4 = (if 2 < 3 - 1 then (smallConfig 4 3 3 4 10).chunk
      else (List.replicate 24 (7 : Byte)).length - (smallConfig 4 3 3 4 10).chunk * (3 - 1)) ∧
    (0xF2 : Byte) = (if 3 = 1 then (smallConfig 4 3 3 4 10).singleCode.code
      else if 2 = 0 then 0xF0 else if 2 = 3 - 1 then 0xF2 else 0xF1) ∧
    (⟨2, 0, 0, 0⟩ : HdrTail) =
      hdrTail (smallConfig 4 3 3 4 10) 2 ((smallConfig 4 3 3 4 10).chunk * 2) 4 := by decide
theorem witness_DefaultHeaderTail : tcfg.hdrTail = [] ∧ 0 < tcfg.chunk ∧ 254 < 255 ∧ 8 ≤ tcfg.chunk ∧
    7 ≤ tcfg.chunk := by decide
theorem witness_PlanTilesFrame : 0 < frameSize (smallConfig 1020 1 1 1020 8) .fb0 ∧
    frameSize (smallConfig 1020 1 1 1020 8) .fb0 ≤ 255 * (smallConfig 1020 1 1 1020 8).chunk := by decide
/-- An answered packet for each clause: not the last, the last, and a failing one; and for each packet row. -/
theorem witness_RedrawPacketAnswered :
    ((redrawing 0 .ok).engine =
        .emitting (.start ⟨0, 0, 1, 0⟩ zeros8) (.redraw .fb0 0 0 (List.replicate 24 0)) ∧
      (redrawing 0 .ok).answers = .ok :: [] ∧ 0 + 1 < planCount (redrawing 0 .ok).cfg .fb0) ∧
    ((redrawing 2 .ok).engine =
        .emitting (.last 3 ⟨2, 0, 1, 0⟩ zeros8) (.redraw .fb0 2 16 (List.replicate 24 0)) ∧
      (redrawing 2 .ok).answers = .ok :: [] ∧ planCount (redrawing 2 .ok).cfg .fb0 ≤ 2 + 1) ∧
    ((redrawing 1 .fail).engine =
        .emitting (.cont 2 ⟨1, 0, 1, 0⟩ zeros8) (.redraw .fb0 1 8 (List.replicate 24 0)) ∧
      (redrawing 1 .fail).answers = .fail :: [] ∧ 1 ≤ 254) ∧
    ((redrawingSingle .ok).engine =
        .emitting (.single ⟨0, 0, 0, 0⟩ (List.replicate 32 0)) (.redraw .fb0 0 0 (List.replicate 24 0)) ∧
      (redrawingSingle .ok).answers = .ok :: [] ∧ planCount (redrawingSingle .ok).cfg .fb0 ≤ 0 + 1) := by decide
theorem witness_EmitWaitsForAnswer :
    stalled.engine = .emitting (.orient 1) .control ∧ stalled.answers = [] ∧ EngineMoves stalled [] ∧
    ∀ ts, stalled.turns ≠ .host .reset :: ts :=
  ⟨rfl, rfl, .inr ⟨rfl, rfl, rfl⟩, by intro ts h; cases h⟩
theorem witness_RedrawDeliversFrame :
    configValid (cleared tcfg).cfg = true ∧ (cleared tcfg).turns = [] ∧ (cleared tcfg).response = none ∧
    frameBytes { cleared tcfg with answers := [.ok, .ok, .ok, .fail] } .fb0 = some (List.replicate 24 0) ∧
    { cleared tcfg with answers := [.ok, .ok, .ok, .fail] }.answers =
      List.replicate (planCount (cleared tcfg).cfg .fb0) .ok ++ [.fail] := by decide
theorem witness_RedrawStopsAtFirstFailure :
    configValid (cleared tcfg).cfg = true ∧ (cleared tcfg).turns = [] ∧ (cleared tcfg).response = none ∧
    frameBytes { cleared tcfg with answers := [.ok, .ok, .fail] } .fb0 = some (List.replicate 24 0) ∧
    2 < planCount (cleared tcfg).cfg .fb0 ∧
    { cleared tcfg with answers := [.ok, .ok, .fail] }.answers = List.replicate 2 .ok ++ .fail :: [] := by decide

theorem witness_PacketDecodeEncode :
    ((Packet.cont 2 ⟨1, 0, 1, 0⟩ zeros8).wellFormed tcfg = true ∧ tcfg.timeCode ≠ 0xF1 ∧ tcfg.heartbeatCode ≠ 0xF1 ∧
      tcfg.timeCode ≠ tcfg.heartbeatCode ∧ tcfg.singleCode ≠ .start) ∧
    ((Packet.single ⟨0, 0, 1, 0⟩ zeros8).wellFormed { tcfg with singleCode := .start } = true ∧
      { tcfg with singleCode := .start }.singleCode = .start) := by decide
theorem witness_StatusWordFields : 0 ≤ 255 ∧ 255 ≤ 255 := by decide
/-- Reset of an idle block, and in the middle of an `Emit`. -/
theorem witness_ResetAtAnyTime :
    ({ cleared tcfg with turns := [.host .reset] }.turns = .host .reset :: [] ∧
      { cleared tcfg with turns := [.host .reset] }.engine = .idle) ∧
    ({ stalled with turns := [.host .reset] }.turns = .host .reset :: [] ∧
      { stalled with turns := [.host .reset] }.engine = .emitting (.orient 1) .control) :=
  ⟨⟨rfl, rfl⟩, rfl, rfl⟩
/-- A valid configuration at the upper limit of the frame size, and one just over it. -/
theorem witness_ConstructionChecksFrameSize :
    (1 ≤ (smallConfig 1020 1 1 1020 8).chunk ∧ (smallConfig 1020 1 1 1020 8).chunk ≤ 65535 ∧
      ∀ b ∈ [Fb.fb0, Fb.fb1], 1 ≤ (smallConfig 1020 1 1 1020 8).width b ∧
        (smallConfig 1020 1 1 1020 8).width b ≤ 65535 ∧ 1 ≤ (smallConfig 1020 1 1 1020 8).height b ∧
        (smallConfig 1020 1 1 1020 8).height b ≤ 65535 ∧
        0 < 2 * (smallConfig 1020 1 1 1020 8).width b * (smallConfig 1020 1 1 1020 8).height b ∧
        2 * (smallConfig 1020 1 1 1020 8).width b * (smallConfig 1020 1 1 1020 8).height b ≤
          255 * (smallConfig 1020 1 1 1020 8).chunk) ∧
    ¬ 2 * (smallConfig 1021 1 1 1021 8).width .fb0 * (smallConfig 1021 1 1 1021 8).height .fb0 ≤
      255 * (smallConfig 1021 1 1 1021 8).chunk := by decide
theorem witness_ResetMeetsInvariant : configValid tcfg = true := by decide

/-- The invariant holds of a state in the middle of a REDRAW with a framebuffer painted. -/
theorem witness_StepKeepsInvariant_inv : (redrawing 1 .ok).Inv where
  config := by decide
  form := by intro b; cases b <;> decide
  bounds := by intro b; cases b <;> decide
  status := by decide
  response := by intro r h; cases h
  engine := ⟨by decide, by decide, by decide, by decide⟩
  emits := by intro e h; cases h
  completed := by intro c h; cases h
  runStart := by decide
theorem witness_StepKeepsInvariant : (redrawing 1 .ok).Inv ∧ ∃ t, step (redrawing 1 .ok) = .next t :=
  ⟨witness_StepKeepsInvariant_inv, _, rfl⟩
theorem witness_StepKeepsConfig : ∃ t, step stalled = .next t := ⟨_, rfl⟩
theorem witness_OnlyTextMovesCursor : writesCursor (.clear .fb0 1) = false ∧
    ∃ t, exec (.clear .fb0 1) (cleared tcfg) = .next t := ⟨rfl, _, rfl⟩
theorem witness_ProtocolWritesNoPixel : isRenderer (.setOrientation 1) = false ∧
    ∃ t, exec (.setOrientation 1) (cleared tcfg) = .next t := ⟨rfl, _, rfl⟩
theorem witness_OnlyRedrawFaults : (∀ b, ((State.resetWith tcfg).fb b).wf) ∧
    exec (.redraw .fb1) (State.resetWith tcfg) = .fault .unwrittenPixel :=
  ⟨by intro b; cases b <;> decide, rfl⟩
/-- A step of a REDRAW, of an ended run, and a reset with an event in the record. -/
theorem witness_PacketStreamOnlyGrows :
    (∃ t, step { redrawing 0 .fail with turns := [.engine] } = .next t) ∧
    (RunEnded { cleared tcfg with turns := [.sink .ok] } ∧ ∃ t, step { cleared tcfg with turns := [.sink .ok] } = .next t) ∧
    ({ stalled with turns := [.host .reset], emits := [⟨[], some .ok⟩] }.turns = .host .reset :: [] ∧
      ∃ t, step { stalled with turns := [.host .reset], emits := [⟨[], some .ok⟩] } = .next t) :=
  ⟨⟨_, rfl⟩, ⟨⟨rfl, rfl, rfl, rfl, by decide⟩, _, rfl⟩, rfl, _, rfl⟩

/-- R197: a run is open while a listed turn still offers a word. -/
theorem test_run_open : ¬ RunEnded { State.resetWith tcfg with turns := [.host (.offer 1)] } := fun h =>
  absurd (h.2.2.2.2 _ (List.mem_cons_self ..)) (by decide)
/-- R197: after a reset a run shows only its own events. -/
theorem test_observation_after_reset :
    (match step { stalled with turns := [.host .reset], emits := [⟨[], some .ok⟩] } with
      | .next t => t.emits.length == 2 && t.observation.emits == []
      | .fault _ => false
      | .refused _ => false) = true := by decide

theorem witness_AssembledCommandIsWellFormed : assembleCommand .redraw [.fb .fb1] = some (.redraw .fb1) := by decide
set_option maxRecDepth 4000 in
/-- Operands at the ends of their fields, and just outside; one string of 255 characters and one of 256. -/
theorem witness_AssemblerRefusesMisfits :
    operandsFit .putPixel [.fb .fb1, .num (-2147483648), .num 2147483647, .num 0xFFFF] ∧
    ¬ operandsFit .putPixel [.fb .fb1, .num 2147483648, .num 0, .num 0] ∧
    operandsFit .drawText [.fb .fb0, .num 0, .num 0, .str (List.replicate 255 0xFF), .num 255, .num 0, .num 0] ∧
    ¬ operandsFit .drawText [.fb .fb0, .num 0, .num 0, .str (List.replicate 256 0x31), .num 1, .num 0, .num 0] ∧
    ¬ operandsFit .setTime [.num 1, .num 2, .num 256] ∧ ¬ operandsFit .redraw [.num 0] := by
  simp only [operandsFit]
  decide
theorem witness_TimeOrHeartbeatExpands : (1 : Int) ≠ 0 ∧ (-1 : Int) ≠ 0 ∧ (0 : Int) = 0 := by decide

end Sys2Proof.Tests
end

section
/-!
The construction-time parameters (spec/00_scope.md R5 to R9): the places of GLYPH_ROM, the table of HDR_TAIL, and the
checks of construction.
-/

namespace Sys2Proof.Machine

/-! ## GLYPH_ROM -/

/-- The character code at a place of GLYPH_ROM: the inverse of `glyphSlot` on the 64 places (log entry 11). -/
def slotCode (k : Nat) : Nat :=
  if k < 10 then 0x30 + k
  else if k < 36 then 0x41 + (k - 10)
  else if k < 62 then 0x61 + (k - 36)
  else if k = 62 then 0x3A
  else 0x20

/-- The codes that have a place, range by range, with the place of each. -/
theorem glyphSlot_eq_some_iff {ch : Byte} {k : Nat} : glyphSlot ch = some k ↔
    (0x30 ≤ ch.toNat ∧ ch.toNat ≤ 0x39 ∧ k = ch.toNat - 0x30) ∨
    (0x41 ≤ ch.toNat ∧ ch.toNat ≤ 0x5A ∧ k = 10 + (ch.toNat - 0x41)) ∨
    (0x61 ≤ ch.toNat ∧ ch.toNat ≤ 0x7A ∧ k = 36 + (ch.toNat - 0x61)) ∨
    (ch.toNat = 0x3A ∧ k = 62) ∨ (ch.toNat = 0x20 ∧ k = 63) := by
  unfold glyphSlot
  split_ifs
  case neg =>
    rw [false_iff]
    omega
  all_goals
    rw [Option.some.injEq]
    omega

theorem glyphSlot_isSome_iff (ch : Byte) : (glyphSlot ch).isSome = true ↔
    (0x30 ≤ ch.toNat ∧ ch.toNat ≤ 0x39) ∨ (0x41 ≤ ch.toNat ∧ ch.toNat ≤ 0x5A) ∨
    (0x61 ≤ ch.toNat ∧ ch.toNat ≤ 0x7A) ∨ ch.toNat = 0x3A ∨ ch.toNat = 0x20 := by
  simp only [Option.isSome_iff_exists, glyphSlot_eq_some_iff, exists_or, exists_and_left, exists_eq, and_true]

theorem slotCode_of_glyphSlot {ch : Byte} {k : Nat} (h : glyphSlot ch = some k) :
    k < 64 ∧ slotCode k = ch.toNat := by
  have hranges := glyphSlot_eq_some_iff.mp h
  unfold slotCode
  exact ⟨by omega, by split_ifs <;> omega⟩

/-- No two codes share a place. -/
theorem glyphSlot_inj {ch ch' : Byte} {k : Nat} (h : glyphSlot ch = some k) (h' : glyphSlot ch' = some k) : ch = ch' :=
  BitVec.eq_of_toNat_eq ((slotCode_of_glyphSlot h).2.symm.trans (slotCode_of_glyphSlot h').2)

theorem glyphRomLookup_of_slot {ch : Byte} {k : Nat} (rom : GlyphRom) (h : glyphSlot ch = some k) (hk : k < 64) :
    glyphRomLookup rom ch = rom.glyphs[k] := by
  simp [glyphRomLookup, h, hk]

theorem glyphRomLookup_of_no_slot {ch : Byte} (rom : GlyphRom) (h : glyphSlot ch = none) :
    glyphRomLookup rom ch = none := by
  simp [glyphRomLookup, h]

theorem glyphSlot_isSome_of_lookup {rom : GlyphRom} {ch : Byte} {g : Glyph} (h : glyphRomLookup rom ch = some g) :
    (glyphSlot ch).isSome = true := by
  cases hs : glyphSlot ch with
  | some k => rfl
  | none => rw [glyphRomLookup_of_no_slot rom hs] at h; cases h

theorem glyphCols_of_lookup_some {cfg : Config} {ch : Byte} {g : Glyph} (h : glyphRomLookup cfg.glyphRom ch = some g) :
    glyphCols cfg ch = g := by
  rw [glyphCols, h, Option.getD_some]

theorem glyphCols_of_lookup_none {cfg : Config} {ch : Byte} (h : glyphRomLookup cfg.glyphRom ch = none) :
    glyphCols cfg ch = blankGlyph := by
  rw [glyphCols, h, Option.getD_none]

/-- The ROM of a map from character codes to glyphs. -/
def romOf (f : Byte → Option Glyph) : GlyphRom := ⟨Vector.ofFn fun k => f (BitVec.ofNat 8 (slotCode k))⟩

theorem glyphRomLookup_romOf {f : Byte → Option Glyph} (hf : ∀ ch, glyphSlot ch = none → f ch = none) (ch : Byte) :
    glyphRomLookup (romOf f) ch = f ch := by
  cases hs : glyphSlot ch with
  | none => rw [glyphRomLookup_of_no_slot _ hs, hf ch hs]
  | some k =>
    obtain ⟨hk, hch⟩ := slotCode_of_glyphSlot hs
    rw [glyphRomLookup_of_slot _ hs hk]
    simp [romOf, hch]

/-- Settles O20: `slotCode` inverts `glyphSlot`, so places are distinct and `romOf` lists any partial map by place. -/
theorem glyphColumnsOfSupportedCodes : Obligations.GlyphColumnsOfSupportedCodes :=
  ⟨glyphSlot_isSome_iff, fun _ _ _ h h' => ⟨glyphSlot_inj h h', (slotCode_of_glyphSlot h).1⟩,
    fun rom _ _ hk h => glyphRomLookup_of_slot rom h hk,
    fun f hf => ⟨romOf f, glyphRomLookup_romOf hf⟩,
    fun _ _ _ h => ⟨glyphSlot_isSome_of_lookup h, glyphCols_of_lookup_some h⟩,
    fun _ _ h => glyphCols_of_lookup_none h⟩

/-! ## HDR_TAIL -/

/-- An entry of the HDR_TAIL table that speaks of these arguments. -/
def EntryApplies (e : TailEntry) (i sent len chunk : Nat) : Prop :=
  e.index = i ∧ e.sent = sent ∧ e.len = len ∧ e.chunk = chunk

/-- Where some entry of the table applies, HDR_TAIL is the value of one that applies. -/
theorem exists_entry_hdrTail {cfg : Config} {e : TailEntry} {i sent len : Nat} (he : e ∈ cfg.hdrTail)
    (happlies : EntryApplies e i sent len cfg.chunk) :
    ∃ e' ∈ cfg.hdrTail, EntryApplies e' i sent len cfg.chunk ∧ hdrTail cfg i sent len = e'.tail := by
  obtain ⟨hindex, hsent, hlen, hchunk⟩ := happlies
  cases hfind : cfg.hdrTail.find? fun e => e.index == i && e.sent == sent && e.len == len && e.chunk == cfg.chunk with
  | none => exact absurd (List.find?_eq_none.mp hfind e he) (by simp [hindex, hsent, hlen, hchunk])
  | some e' =>
    have happlies' : EntryApplies e' i sent len cfg.chunk := by
      simpa [EntryApplies, and_assoc] using List.find?_some hfind
    exact ⟨e', List.mem_of_find?_eq_some hfind, happlies', by rw [hdrTail, hfind]⟩

/-- The table entry that gives `f`'s value at one argument triple, under the packet size `chunk`. -/
def tailEntryOf (chunk : Nat) (f : Nat → Nat → Nat → HdrTail) (a : Nat × Nat × Nat) : TailEntry :=
  ⟨a.1, a.2.1, a.2.2, chunk, f a.1 a.2.1 a.2.2⟩

/-- Settles O39: the table lists `f` at each of the arguments, and every entry that applies at one of them gives `f`'s
value there, so repeated arguments do no harm. -/
theorem headerTailIsAnyFunction : Obligations.HeaderTailIsAnyFunction := by
  intro cfg f args
  refine ⟨args.map (tailEntryOf cfg.chunk f), fun a ha => ?_⟩
  obtain ⟨e, he, happlies, htail⟩ := exists_entry_hdrTail
    (cfg := { cfg with hdrTail := args.map (tailEntryOf cfg.chunk f) })
    (List.mem_map_of_mem ha) ⟨rfl, rfl, rfl, rfl⟩
  obtain ⟨a', -, rfl⟩ := List.mem_map.mp he
  obtain ⟨hindex, hsent, hlen, -⟩ := happlies
  obtain rfl : a' = a := Prod.ext hindex (Prod.ext hsent hlen)
  exact htail

/-! ## Construction -/

theorem forall_mem_fbs {P : Fb → Prop} : (∀ b ∈ [Fb.fb0, Fb.fb1], P b) ↔ ∀ b, P b :=
  ⟨fun h b => h b (by cases b <;> decide), fun h b _ => h b⟩

/-- The construction check is the condition of R5 to R7, for both framebuffers. -/
theorem configValid_iff (cfg : Config) : configValid cfg = true ↔
    1 ≤ cfg.chunk ∧ cfg.chunk ≤ 65535 ∧
      ∀ b : Fb, 1 ≤ cfg.width b ∧ cfg.width b ≤ 65535 ∧ 1 ≤ cfg.height b ∧ cfg.height b ≤ 65535 ∧
        0 < frameSize cfg b ∧ frameSize cfg b ≤ 255 * cfg.chunk := by
  simp only [configValid, Bool.and_eq_true, decide_eq_true_eq, List.all_eq_true, forall_mem_fbs, and_assoc]

/-- Settles O50: `construct` branches on `configValid`, the condition by `configValid_iff`. -/
theorem constructionChecksFrameSize : Obligations.ConstructionChecksFrameSize := fun cfg =>
  ⟨fun h => if_pos ((configValid_iff cfg).mpr h), fun h => if_neg fun hv => h ((configValid_iff cfg).mp hv)⟩

end Sys2Proof.Machine
end

section
/-!
The fields of STATUS (spec/10_state.md R23) and the state after reset (R31).
-/

namespace Sys2Proof.Machine

/-! ## The fields of a STATUS word (R170) -/

theorem statusCode_statusWord (code : Code) (idx : Nat) : statusCode (statusWord code idx) = code.bits := by
  rw [statusCode, statusWord, BitVec.extractLsb'_append_eq_of_add_le (by omega), BitVec.extractLsb'_eq_self]

theorem statusReservedLow_statusWord (code : Code) (idx : Nat) : statusReservedLow (statusWord code idx) = 0#4 := by
  rw [statusReservedLow, statusWord, BitVec.extractLsb'_append_eq_of_le (by omega),
    BitVec.extractLsb'_append_eq_of_add_le (by omega), BitVec.extractLsb'_eq_self]

theorem statusFailIndex_statusWord (code : Code) (idx : Nat) :
    statusFailIndex (statusWord code idx) = BitVec.ofNat 8 idx := by
  rw [statusFailIndex, statusWord, BitVec.extractLsb'_append_eq_of_le (by omega),
    BitVec.extractLsb'_append_eq_of_le (by omega), BitVec.extractLsb'_append_eq_of_add_le (by omega),
    BitVec.extractLsb'_eq_self]

theorem statusReservedHigh_statusWord (code : Code) (idx : Nat) : statusReservedHigh (statusWord code idx) = 0#16 := by
  rw [statusReservedHigh, statusWord, BitVec.extractLsb'_append_eq_of_le (by omega),
    BitVec.extractLsb'_append_eq_of_le (by omega), BitVec.extractLsb'_append_eq_of_le (by omega),
    BitVec.extractLsb'_eq_self]

/-- Settles O47: each field of the word is the part of the concatenation at its place. -/
theorem statusWordFields : Obligations.StatusWordFields := by
  intro code idx hidx
  refine ⟨?_, statusReservedLow_statusWord code idx, ?_, statusReservedHigh_statusWord code idx⟩
  · refine (statusCode_statusWord code idx).trans ?_
    cases code <;> rfl
  · refine (congrArg BitVec.toNat (statusFailIndex_statusWord code idx)).trans ?_
    rw [BitVec.toNat_ofNat]
    exact Nat.mod_eq_of_lt (by omega)

/-! ## After reset (R31) -/

theorem resetWith_fb (cfg : Config) (b : Fb) : (State.resetWith cfg).fb b = [] := by cases b <;> rfl

/-- Settles O48: `State.resetWith` names these values. -/
theorem resetLeaves : Obligations.ResetLeaves :=
  ⟨rfl, fun cfg => ⟨fun b k => by rw [resetWith_fb]; rfl, rfl, rfl, rfl, rfl, rfl, rfl⟩⟩

end Sys2Proof.Machine
end

section
/-!
What one instruction does to the state, said once (`ExecEffect`), and what follows of every instruction and every
step: the configuration stays (R26), CURSOR_X is moved by text alone (R24), protocol commands write no cell (R21).
-/

namespace Sys2Proof.Machine

/-! ## Drawing operations -/

/-- A drawing operation under which a framebuffer stays in canonical form and lists only cells that exist (R21). -/
structure KeepsForm (op : Nat → Nat → Memory → Memory) : Prop where
  wf     : ∀ {wd ht m}, Memory.wf m → (op wd ht m).wf
  within : ∀ {wd ht m}, Memory.within m (wd * ht) → (op wd ht m).within (wd * ht)

theorem keepsForm_of_paints {op : Nat → Nat → Memory → Memory} {f : Int → Int → Option Color}
    (h : ∀ wd ht m, Paints wd ht m (op wd ht m) f) : KeepsForm op :=
  ⟨(h _ _ _).wf, (h _ _ _).within⟩

theorem keepsForm_clearCells (c : Color) : KeepsForm fun wd ht _ => clearCells wd ht c :=
  ⟨fun _ => clearCells_wf _ _ c, fun _ => clearCells_within _ _ c⟩

theorem keepsForm_rotateCells (src : Memory) : KeepsForm fun wd ht _ => rotateCells wd ht src :=
  ⟨fun _ => rotateCells_wf _ _ src, fun _ => rotateCells_within _ _ src⟩

theorem u8_nonneg (v : Byte) : 0 ≤ u8 v := Int.natCast_nonneg _

/-! ## What an instruction does -/

/-- The states in which an instruction that goes on can leave `s`: a renderer command has drawn and returned; a command
has failed without drawing; a protocol command has started its first `Emit`, legally; or a packet row has moved. -/
inductive ExecEffect (i : Instr) (s : State) : State → Prop
  | drawn (b : Fb) (op : Nat → Nat → Memory → Memory) (cur : Word) (hi : isRenderer i = true)
      (hcur : writesCursor i = false → cur = s.cursorX) (hop : KeepsForm op) :
      ExecEffect i s (finish .ok 0 { s.paint b op with cursorX := cur })
  | failed (code : Code) (hcode : code ≠ .transportFailure) : ExecEffect i s (finish code 0 s)
  | started (p : Packet) (job : Job) (hlegal : engineLegal s.cfg (.emitting p job)) :
      ExecEffect i s (startEmit p job s)
  | emitted (p : Packet) : ExecEffect i s (emit p s)

/-- A renderer command that draws and leaves CURSOR_X. -/
theorem ExecEffect.drawnOnly {i : Instr} {s : State} {b : Fb} {op : Nat → Nat → Memory → Memory}
    (hi : isRenderer i = true) (hop : KeepsForm op) : ExecEffect i s (finish .ok 0 (s.paint b op)) := by
  rw [paint_cursorX_self]
  exact .drawn b op s.cursorX hi (fun _ => rfl) hop

/-- The first packet of a REDRAW is packet 0 of its plan (R149). -/
theorem engineLegal_redrawStart {s : State} {b : Fb} {frame : List Byte} (hF : 0 < frameSize s.cfg b)
    (hF' : frameSize s.cfg b ≤ 255 * s.cfg.chunk) (hframe : frameBytes s b = some frame) :
    engineLegal s.cfg (.emitting (redrawPacket s.cfg b frame 0 0) (.redraw b 0 0 frame)) :=
  ⟨frameBytes_length hframe, (planCount_bounds hF (by omega)).1, rfl, rfl⟩

theorem execRedraw_effect {b : Fb} {s t : State} (h : execRedraw b s = .next t) : ExecEffect (.redraw b) s t := by
  rcases execRedraw_cases b s with ⟨-, he⟩ | ⟨-, -, -, he⟩ | ⟨frame, hF, hF', hframe, he⟩ <;>
    rw [he] at h <;> cases h
  · exact .failed .frameSizeInvalid (by decide)
  · exact .started _ _ (engineLegal_redrawStart hF hF' hframe)

theorem execRotate90cw_effect {src dst : Fb} {s t : State} (h : execRotate90cw src dst s = .next t) :
    ExecEffect (.rotate90cw src dst) s t := by
  rcases execRotate90cw_cases src dst s with ⟨-, he⟩ | ⟨-, he⟩ <;> rw [he] at h <;> cases h
  · exact .drawnOnly rfl (keepsForm_rotateCells _)
  · exact .failed .rotateGeometry (by decide)

/-- Every instruction that goes on has one of these effects. -/
theorem exec_effect {i : Instr} {s t : State} (h : exec i s = .next t) : ExecEffect i s t := by
  cases i
  case redraw => exact execRedraw_effect h
  case rotate90cw => exact execRotate90cw_effect h
  all_goals cases h
  case clear => exact .drawnOnly rfl (keepsForm_clearCells _)
  case putPixel => exact .drawnOnly rfl (keepsForm_of_paints fun _ _ _ => putPixel_paints _ _ _ _ _ _)
  case fillRect => exact .drawnOnly rfl (keepsForm_of_paints fun _ _ _ => fillRect_paints _ _ _ _ _ _ _ _)
  case drawBar => exact .drawnOnly rfl (keepsForm_of_paints fun _ _ _ => drawBar_paints _ _ _ _ _ _ _ _ _ _ _)
  case drawChar =>
    exact .drawn _ _ _ rfl (fun hw => by cases hw)
      (keepsForm_of_paints fun _ _ _ => drawCell_paints _ _ _ _ _ _ (u8_nonneg _) _ _)
  case drawText =>
    exact .drawn _ _ _ rfl (fun hw => by cases hw)
      (keepsForm_of_paints fun _ _ _ => drawTextFrom_paints _ _ _ _ _ (u8_nonneg _) _ _ _ _ _)
  case setOrientation | setTime | heartbeat => exact .started _ .control rfl
  all_goals exact .emitted _

theorem exec_cfg {i : Instr} {s t : State} (h : exec i s = .next t) : t.cfg = s.cfg := by
  cases exec_effect h with
  | drawn b op => exact State.paint_cfg s b op
  | failed => rfl
  | started => rfl
  | emitted p => exact (emit_keeps p s).1

/-- Settles O54: of the effects of an instruction only a drawing writes CURSOR_X, and only a text command's. -/
theorem onlyTextMovesCursor : Obligations.OnlyTextMovesCursor := by
  intro i s t hi h
  cases exec_effect h with
  | drawn b op cur _ hcur => exact hcur hi
  | failed => rfl
  | started => rfl
  | emitted p =>
    obtain ⟨-, -, hcursor, -⟩ := emit_keeps p s
    exact hcursor

/-- Settles O55: of the effects of an instruction only a renderer command's drawing writes a cell. -/
theorem protocolWritesNoPixel : Obligations.ProtocolWritesNoPixel := by
  intro i s t hi h b
  cases exec_effect h with
  | drawn _ _ _ hr => rw [hi] at hr; cases hr
  | failed code => exact finish_fb code 0 s b
  | started p job => exact startEmit_fb p job s b
  | emitted p =>
    obtain ⟨-, hfb, -⟩ := emit_keeps p s
    exact hfb b

/-! ## The configuration (R26) -/

theorem hostTurn_cfg (a : HostAction) (s : State) : (hostTurn a s).cfg = s.cfg := by
  cases a with
  | offer v => rfl
  | take => exact (hostTake_keeps s).1
  | reset => rfl

theorem engineTurn_cfg {s t : State} (h : engineTurn s = .next t) : t.cfg = s.cfg := by
  rcases engineTurn_cases s with ⟨p, _, -, he⟩ | ⟨-, -, he⟩ | ⟨-, -, -, he⟩ | ⟨_, _, _, -, -, -, -, he⟩ |
    ⟨_, _, _, -, -, -, -, he⟩ <;> rw [he] at h
  · exact exec_cfg h
  · cases h; rfl
  · cases h; rfl
  · cases h; rfl
  · exact (exec_cfg h).trans rfl

/-- Settles O53, by the agent whose turn the step is. -/
theorem stepKeepsConfig : Obligations.StepKeepsConfig := by
  intro s t h
  rcases step_cases h with ⟨a, ts, -, rfl⟩ | ⟨a, ts, -, rfl⟩ | ⟨-, rfl⟩ | ⟨ts, -, he⟩
  · exact hostTurn_cfg a _
  · rfl
  · exact (hostTake_keeps s).1
  · exact (engineTurn_cfg he).trans rfl

end Sys2Proof.Machine
end

section
/-!
The invariant of a step: it holds after reset, and every operation of the state that a turn of an agent is made of
keeps it.
-/

namespace Sys2Proof.Machine

/-! ## After reset -/

theorem resetWith_inv {cfg : Config} (h : configValid cfg = true) : (State.resetWith cfg).Inv where
  config := h
  form b := by rw [resetWith_fb]; exact List.Pairwise.nil
  bounds b := by rw [resetWith_fb]; exact List.forall_mem_nil _
  status := (by decide : statusLegal 0 = true)
  response _ hr := by cases hr
  engine := trivial
  emits := List.forall_mem_nil _
  completed := List.forall_mem_nil _
  runStart := ⟨Nat.le_refl 0, Nat.le_refl 0⟩

/-- Settles O51; the default configuration exists. -/
theorem resetMeetsInvariant : Obligations.ResetMeetsInvariant :=
  ⟨resetWith_inv (by decide), fun _ => resetWith_inv⟩

/-! ## Packets of `8 + C` bytes (R70) -/

theorem redrawBytes_length (code seq : Byte) (tail : HdrTail) (data : List Byte) :
    (redrawBytes code seq tail data).length = 8 + data.length := List.length_append

theorem controlBytes_length (cfg : Config) (code a3 a4 a5 : Byte) :
    (controlBytes cfg code a3 a4 a5).length = 8 + cfg.chunk :=
  List.length_append.trans (congrArg (8 + ·) List.length_replicate)

theorem controlPacket_length {p : Packet} (cfg : Config) (h : isControlPacket p = true) :
    (packetBytes cfg p).length = 8 + cfg.chunk := by
  cases p
  case orient | time | heartbeat => exact controlBytes_length cfg _ _ _ _
  all_goals cases h

/-- Whatever its kind, a packet of the plan carries the plan's data region. -/
theorem redrawPacket_length (cfg : Config) (b : Fb) (frame : List Byte) (i sent : Nat) :
    (packetBytes cfg (redrawPacket cfg b frame i sent)).length =
      8 + (planData cfg frame sent (planLen cfg b i)).length := by
  unfold redrawPacket
  split_ifs <;> exact redrawBytes_length _ _ _ _

/-- The packet in `Emit` has `8 + C` bytes. -/
theorem engineLegal_packet_length {cfg : Config} {p : Packet} {job : Job} (hcfg : configValid cfg = true)
    (h : engineLegal cfg (.emitting p job)) : (packetBytes cfg p).length = 8 + cfg.chunk := by
  cases job with
  | control => exact controlPacket_length cfg h
  | redraw b i sent frame =>
    obtain ⟨hframe, hi, rfl, rfl⟩ := h
    obtain ⟨hC, -, hfb⟩ := (configValid_iff cfg).mp hcfg
    obtain ⟨-, -, -, -, hF, -⟩ := hfb b
    rw [redrawPacket_length,
      planData_length (hframe ▸ planLen_end hF hC hi) (planLen_bounds hF hC).2]

/-- After packet `i`, unless it is the last, comes packet `i + 1` of the plan (R149). -/
theorem engineLegal_redrawNext {cfg : Config} {b : Fb} {i sent : Nat} {frame : List Byte} {p : Packet}
    (h : engineLegal cfg (.emitting p (.redraw b i sent frame))) (hi : i + 1 < planCount cfg b) :
    engineLegal cfg (.emitting (redrawPacket cfg b frame (i + 1) (sent + planLen cfg b i))
      (.redraw b (i + 1) (sent + planLen cfg b i) frame)) := by
  obtain ⟨hframe, -, rfl, -⟩ := h
  refine ⟨hframe, hi, ?_, rfl⟩
  rw [planLen, if_pos hi, Nat.mul_succ]

/-! ## Operations that keep the invariant -/

variable {s : State}

/-- The invariant says nothing of the words, the answers and the turns. -/
theorem State.Inv.setOutside (h : s.Inv) (words port : List Word) (answers : List Answer) (turns : List Turn) :
    { s with words := words, port := port, answers := answers, turns := turns }.Inv :=
  { h with }

theorem State.Inv.recordEmit (h : s.Inv) {e : EmitEvent} (he : e.bytes.length = 8 + s.cfg.chunk) :
    { s with emits := s.emits ++ [e] }.Inv :=
  { h with
    emits := List.forall_mem_append.mpr ⟨h.emits, List.forall_mem_singleton.mpr he⟩
    runStart := ⟨h.runStart.1.trans (by simp), h.runStart.2⟩ }

/-- `finish` keeps the invariant where it writes a STATUS value that R23 allows. -/
theorem State.Inv.finish (h : s.Inv) {code : Code} {idx : Nat} (hidx : idx ≤ 254)
    (hcode : code ≠ .transportFailure → idx = 0) : (finish code idx s).Inv :=
  { h with
    status := statusLegal_statusWord hidx hcode
    response := fun _ hr => ⟨rfl, (Option.some.inj hr).symm⟩
    engine := trivial }

theorem State.Inv.startEmit (h : s.Inv) (hr : s.response = none) {p : Packet} {job : Job}
    (hlegal : engineLegal s.cfg (.emitting p job)) : (startEmit p job s).Inv :=
  { h with
    response := fun _ hr' => by cases hr.symm.trans hr'
    engine := hlegal }

theorem State.Inv.setFb (h : s.Inv) {b : Fb} {m : Memory} (hwf : m.wf)
    (hwithin : m.within (s.cfg.width b * s.cfg.height b)) : (s.setFb b m).Inv := by
  have hform (b' : Fb) : ((s.setFb b m).fb b').wf := by
    rw [State.setFb_fb]
    split_ifs
    exacts [hwf, h.form b']
  have hbounds (b' : Fb) : ((s.setFb b m).fb b').within (s.cfg.width b' * s.cfg.height b') := by
    rw [State.setFb_fb]
    split_ifs with hb
    exacts [hb ▸ hwithin, h.bounds b']
  cases b <;> exact { h with form := hform, bounds := hbounds }

theorem State.Inv.paint (h : s.Inv) (b : Fb) {op : Nat → Nat → Memory → Memory} (hop : KeepsForm op) :
    (s.paint b op).Inv :=
  h.setFb (hop.wf (h.form b)) (hop.within (h.bounds b))

/-- While no response waits, no register has to be what a response shows (R69). -/
theorem State.Inv.setCursorX (h : s.Inv) (hr : s.response = none) (cur : Word) : { s with cursorX := cur }.Inv :=
  { h with response := fun _ hr' => by cases hr.symm.trans hr' }

/-! ## The engine's turn -/

/-- In an `Emit` no response waits (R194). -/
theorem State.Inv.response_none (h : s.Inv) {p : Packet} {job : Job} (he : s.engine = .emitting p job) :
    s.response = none := by
  cases hr : s.response with
  | none => rfl
  | some r => cases he.symm.trans (h.response r hr).1

theorem State.Inv.engine_legal (h : s.Inv) {p : Packet} {job : Job} (he : s.engine = .emitting p job) :
    engineLegal s.cfg (.emitting p job) := he ▸ h.engine

/-- The packet in `Emit` may join the packet stream, answered or cut off. -/
theorem State.Inv.packet_length (h : s.Inv) {p : Packet} {job : Job} (he : s.engine = .emitting p job) :
    (packetBytes s.cfg p).length = 8 + s.cfg.chunk :=
  engineLegal_packet_length h.config (h.engine_legal he)

/-- A packet that fails has an index that fits FAIL_INDEX (R173): a plan has at most 255 packets. -/
theorem State.Inv.redrawIndex_le (h : s.Inv) {p : Packet} {b : Fb} {i sent : Nat} {frame : List Byte}
    (he : s.engine = .emitting p (.redraw b i sent frame)) : i ≤ 254 := by
  obtain ⟨-, hi, -, -⟩ := h.engine_legal he
  obtain ⟨-, -, hfb⟩ := (configValid_iff s.cfg).mp h.config
  obtain ⟨-, -, -, -, hF, hF'⟩ := hfb b
  have := planCount_le hF hF'
  omega

theorem State.Inv.afterEmit (h : s.Inv) {p : Packet} {job : Job} (he : s.engine = .emitting p job) (a : Answer) :
    (afterEmit a job s).Inv := by
  rcases afterEmit_cases a job s with ⟨code, -, heq, -⟩ | ⟨b, i, sent, frame, rfl, hredraw⟩
  · rw [heq]
    exact h.finish (Nat.zero_le _) fun _ => rfl
  · rcases hredraw with ⟨-, hi, heq⟩ | ⟨-, -, heq⟩ | ⟨-, heq⟩ <;> rw [heq]
    · exact h.startEmit (h.response_none he) (engineLegal_redrawNext (h.engine_legal he) hi)
    · exact h.finish (Nat.zero_le _) fun _ => rfl
    · exact h.finish (h.redrawIndex_le he) fun hne => absurd rfl hne

theorem State.Inv.emit (h : s.Inv) (p : Packet) : (emit p s).Inv := by
  rcases emit_cases p s with heq | ⟨job, a, as, he, -, heq⟩ <;> rw [heq]
  · exact h
  · exact ((h.setOutside s.words s.port as s.turns).recordEmit (h.packet_length he)).afterEmit he a

theorem State.Inv.exec (h : s.Inv) (hr : s.response = none) {i : Instr} {t : State} (ht : exec i s = .next t) :
    t.Inv := by
  cases exec_effect ht with
  | drawn b op cur _ _ hop =>
    exact ((h.paint b hop).setCursorX ((State.paint_response s b op).trans hr) cur).finish (Nat.zero_le _)
      fun _ => rfl
  | failed code => exact h.finish (Nat.zero_le _) fun _ => rfl
  | started p job hlegal => exact h.startEmit hr hlegal
  | emitted p => exact h.emit p

theorem State.Inv.engineTurn (h : s.Inv) {t : State} (ht : engineTurn s = .next t) : t.Inv := by
  rcases engineTurn_cases s with ⟨p, job, hen, he⟩ | ⟨-, -, he⟩ | ⟨-, -, -, he⟩ | ⟨cmd, rest, _, -, -, -, -, he⟩ |
    ⟨cmd, rest, i, -, hr, -, -, he⟩ <;> rw [he] at ht
  · exact h.exec (h.response_none hen) ht
  · cases ht
    exact h
  · cases ht
    exact h.setOutside _ _ s.answers s.turns
  · cases ht
    exact (h.setOutside cmd rest s.answers s.turns).finish (Nat.zero_le _) fun _ => rfl
  · exact (h.setOutside cmd rest s.answers s.turns).exec hr ht

/-! ## The host's turn -/

theorem State.Inv.hostTake (h : s.Inv) : (hostTake s).Inv := by
  cases hr : s.response with
  | none => rwa [hostTake_none hr]
  | some r =>
    rw [hostTake_some hr]
    obtain ⟨-, rfl⟩ := h.response r hr
    exact { h with
      response := fun _ hr' => by cases hr'
      completed := List.forall_mem_append.mpr ⟨h.completed, List.forall_mem_singleton.mpr h.status⟩
      runStart := ⟨h.runStart.1, h.runStart.2.trans (by simp)⟩ }

theorem State.Inv.hostReset (h : s.Inv) : (hostReset s).Inv := by
  have hcut : ∀ e ∈ cutEmit s, e.bytes.length = 8 + s.cfg.chunk := by
    rcases cutEmit_cases s with ⟨-, hcut⟩ | ⟨p, job, he, hcut⟩ <;> rw [hcut]
    · exact List.forall_mem_nil _
    · exact List.forall_mem_singleton.mpr (h.packet_length he)
  exact { resetWith_inv h.config with
    emits := List.forall_mem_append.mpr ⟨h.emits, hcut⟩
    completed := h.completed
    runStart := ⟨Nat.le_refl _, Nat.le_refl _⟩ }

theorem State.Inv.hostTurn (h : s.Inv) (a : HostAction) : (hostTurn a s).Inv := by
  cases a with
  | offer v => exact h.setOutside s.words _ s.answers s.turns
  | take => exact h.hostTake
  | reset => exact h.hostReset

/-- Settles O52, by the agent whose turn the step is. -/
theorem stepKeepsInvariant : Obligations.StepKeepsInvariant := by
  intro s t h ht
  have hturns (ts : List Turn) : { s with turns := ts }.Inv := h.setOutside s.words s.port s.answers ts
  rcases step_cases ht with ⟨a, ts, -, rfl⟩ | ⟨a, ts, -, rfl⟩ | ⟨-, rfl⟩ | ⟨ts, -, he⟩
  · exact (hturns ts).hostTurn a
  · exact h.setOutside s.words s.port _ ts
  · exact h.hostTake
  · exact (hturns ts).engineTurn he

end Sys2Proof.Machine
end

section
/-!
Framebuffer contents (spec/20_memory.md R41 to R45): what a renderer command that leaves CURSOR_X returns, and where the
bytes of a cell stand in the frame that a REDRAW sends.
-/

namespace Sys2Proof.Machine

/-! ## A drawing command that leaves CURSOR_X -/

/-- From what the drawing paints: the picture, STATUS 0 with CURSOR_X unchanged, and no packet (R100, R170). -/
theorem finish_paint_effect {s : State} {b : Fb} {op : Nat → Nat → Memory → Memory} {f : Int → Int → Option Color}
    (h : Paints (s.cfg.width b) (s.cfg.height b) (s.fb b) (op (s.cfg.width b) (s.cfg.height b) (s.fb b)) f) :
    DrawsOnly s (finish .ok 0 (s.paint b op)) b f ∧ Returned s (finish .ok 0 (s.paint b op)) 0 s.cursorX ∧
      EmitsNothing s (finish .ok 0 (s.paint b op)) := by
  rw [paint_cursorX_self, ← statusWord_ok]
  exact ⟨paint_drawsOnly h .ok 0 s.cursorX, paint_returned s b op .ok 0 s.cursorX,
    paint_emitsNothing s b op .ok 0 s.cursorX⟩

/-- Settles O17: the drawing operation paints the one cell, clipped (`putPixel_paints`). -/
theorem putPixelWritesOneCell : Obligations.PutPixelWritesOneCell := fun _ x y color _ =>
  ⟨_, rfl, finish_paint_effect (putPixel_paints _ _ _ (s32 x) (s32 y) color)⟩

/-! ## The frame of a REDRAW (R44) -/

/-- The two bytes of a written cell stand at twice its linear index, low byte first (R43, R44). -/
theorem frameBytes_getElem?_of_cell {s : State} {b : Fb} {frame : List Byte} {x y : Nat} {c : Color}
    (hwf : (s.fb b).wf) (hframe : frameBytes s b = some frame) (hx : x < s.cfg.width b) (hy : y < s.cfg.height b)
    (hc : (s.fb b).cell (s.cfg.width b) x y = some c) :
    frame[2 * cellIndex (s.cfg.width b) x y]? = some (c.extractLsb' 0 8) ∧
      frame[2 * cellIndex (s.cfg.width b) x y + 1]? = some (c.extractLsb' 8 8) := by
  have hcell : ((List.range (s.cfg.width b * s.cfg.height b)).map (s.fb b).read)[cellIndex (s.cfg.width b) x y]? =
      some (some c) := by
    rw [List.getElem?_map, List.getElem?_range (cellIndex_lt hx hy)]
    exact congrArg some hc
  rw [frameBytes_eq hwf] at hframe
  exact packCells_getElem? hframe hcell

/-- A REDRAW of a frame of a legal size goes to packet 0 (R149). -/
theorem execRedraw_of_frameBytes {s : State} {b : Fb} {frame : List Byte} (hF : 0 < frameSize s.cfg b)
    (hF' : frameSize s.cfg b ≤ 255 * s.cfg.chunk) (hframe : frameBytes s b = some frame) :
    execRedraw b s = .next (startRedrawPacket b 0 0 frame s) := by
  rw [execRedraw, if_neg (by omega), hframe]

/-- Settles O34: the frame exists because every cell is written, and it packs the cells in row-major order. -/
theorem redrawStartsWithFrame : Obligations.RedrawStartsWithFrame := by
  intro b s hF hF' hwf hall
  obtain ⟨frame, hframe⟩ := Option.isSome_iff_exists.mp ((frameBytes_isSome hwf).mpr hall)
  exact ⟨frame, execRedraw_of_frameBytes hF hF' hframe, frameBytes_length hframe,
    fun _ _ _ => frameBytes_getElem?_of_cell hwf hframe⟩

end Sys2Proof.Machine
end

section
/-!
The command decoder and encoder (spec/30_encoding.md R60 to R68): the fixed fields of a header word, the opcode map, the
characters of a string, and the round trip.
-/

namespace Sys2Proof

/-! ## The fixed fields of a header word (R61, R65, R68) -/

/-- `W0[15:10]`, the reserved field `RSV` (R61). -/
def rsvField (v : Word) : BitVec 6 := v.extractLsb' 10 6

/-- The six fields of R61 cover a word. -/
theorem word_eq_iff_fields {v w : Word} : v = w ↔
    opField v = opField w ∧ bField v = bField w ∧ dField v = dField w ∧ rsvField v = rsvField w ∧
      aLow v = aLow w ∧ aHigh v = aHigh w := by
  constructor
  · rintro rfl
    exact ⟨rfl, rfl, rfl, rfl, rfl, rfl⟩
  · rintro ⟨hop, hb, hd, hrsv, hlow, hhigh⟩
    have bit {lo n : Nat} (h : v.extractLsb' lo n = w.extractLsb' lo n) (i : Nat) (hlo : lo ≤ i) (hi : i < lo + n) :
        v.getLsbD i = w.getLsbD i := by
      have := congrArg (·.getLsbD (i - lo)) h
      simpa [show i - lo < n by omega, show lo + (i - lo) = i by omega] using this
    refine BitVec.eq_of_getLsbD_eq fun i hi => ?_
    obtain h | h | h | h | h | h : i < 8 ∨ i = 8 ∨ i = 9 ∨ (10 ≤ i ∧ i < 16) ∨ (16 ≤ i ∧ i < 24) ∨ 24 ≤ i := by omega
    · exact bit hop i (by omega) (by omega)
    · exact bit hb i (by omega) (by omega)
    · exact bit hd i (by omega) (by omega)
    · exact bit hrsv i (by omega) (by omega)
    · exact bit hlow i (by omega) (by omega)
    · exact bit hhigh i (by omega) (by omega)

@[simp] theorem opField_and (v w : Word) : opField (v &&& w) = opField v &&& opField w := BitVec.extractLsb'_and
@[simp] theorem bField_and (v w : Word) : bField (v &&& w) = bField v &&& bField w := BitVec.extractLsb'_and
@[simp] theorem dField_and (v w : Word) : dField (v &&& w) = dField v &&& dField w := BitVec.extractLsb'_and
@[simp] theorem rsvField_and (v w : Word) : rsvField (v &&& w) = rsvField v &&& rsvField w := BitVec.extractLsb'_and
@[simp] theorem aLow_and (v w : Word) : aLow (v &&& w) = aLow v &&& aLow w := BitVec.extractLsb'_and
@[simp] theorem aHigh_and (v w : Word) : aHigh (v &&& w) = aHigh v &&& aHigh w := BitVec.extractLsb'_and

/-- The fields of the mask of a table row: each field is fixed or free as a whole, `A` by its halves (R65). -/
theorem Opcode.mask_fields (op : Opcode) :
    opField op.mask = BitVec.allOnes 8 ∧ rsvField op.mask = BitVec.allOnes 6 ∧
      dField op.mask = (if op ≠ .rotate90cw then BitVec.allOnes 1 else 0#1) ∧
      bField op.mask = (if op = .setOrientation ∨ op = .setTime ∨ op = .heartbeat then BitVec.allOnes 1 else 0#1) ∧
      aLow op.mask = (if op = .rotate90cw ∨ op = .redraw then BitVec.allOnes 8 else 0#8) ∧
      aHigh op.mask = (if op = .rotate90cw ∨ op = .redraw ∨ op = .setOrientation then BitVec.allOnes 8 else 0#8) := by
  cases op <;> decide

theorem Opcode.pattern_fields (op : Opcode) :
    opField op.pattern = op.code ∧ bField op.pattern = 0#1 ∧ dField op.pattern = 0#1 ∧
      rsvField op.pattern = 0#6 ∧ aLow op.pattern = 0#8 ∧ aHigh op.pattern = 0#8 := by
  cases op <;> decide

/-- `A` is 0 exactly where both its halves are (R61). -/
theorem aField_eq_zero_iff (v : Word) : aField v = 0#16 ↔ aLow v = 0#8 ∧ aHigh v = 0#8 := by
  simp only [aField, aLow, aHigh, ← BitVec.toNat_inj, BitVec.extractLsb'_toNat, Nat.shiftRight_eq_div_pow,
    BitVec.toNat_ofNat]
  omega

/-- The violations of R65 and R68: a fixed field of a header word is not 0. -/
def BreaksFixedField (op : Opcode) (v : Word) : Prop :=
  rsvField v ≠ 0#6 ∨ (op ≠ .rotate90cw ∧ dField v ≠ 0#1) ∨
    ((op = .rotate90cw ∨ op = .redraw) ∧ aField v ≠ 0#16) ∨ (op = .setOrientation ∧ aHigh v ≠ 0#8) ∨
    ((op = .setOrientation ∨ op = .setTime ∨ op = .heartbeat) ∧ bField v ≠ 0#1)

/-- A field under a mask that fixes it where `c` holds. -/
theorem and_ite_allOnes_eq_zero {n : Nat} {v : BitVec n} {c : Prop} [Decidable c] :
    v &&& (if c then BitVec.allOnes n else 0#n) = 0#n ↔ (c → v = 0#n) := by
  split_ifs with hc <;> simp [hc]

/-- A header word with its OP value misses the table row's pattern exactly by a violation. -/
theorem mask_ne_pattern_iff {op : Opcode} {v : Word} (h : opField v = op.code) :
    v &&& op.mask ≠ op.pattern ↔ BreaksFixedField op v := by
  obtain ⟨mop, mrsv, md, mb, mlow, mhigh⟩ := op.mask_fields
  obtain ⟨pop, pb, pd, prsv, plow, phigh⟩ := op.pattern_fields
  simp only [Ne, word_eq_iff_fields, opField_and, bField_and, dField_and, rsvField_and, aLow_and, aHigh_and, mop,
    mrsv, md, mb, mlow, mhigh, pop, pb, pd, prsv, plow, phigh, h, BitVec.and_allOnes, and_ite_allOnes_eq_zero,
    BreaksFixedField, aField_eq_zero_iff]
  grind

/-- Settles O7: the decoder compares the masked header word with the row's pattern, which fails exactly by a violation;
the operand decoder after it reports no fixed field. -/
theorem fixedFieldViolationsRejected : Obligations.FixedFieldViolationsRejected := by
  intro op w0 ws h
  refine Iff.trans ?_ (mask_ne_pattern_iff h)
  rw [decodeCommand_defined h]
  split_ifs with hm
  · have hok : decodeOperands op w0 ws ≠ .error (.fixedField op) := by
      rcases decodeOperands_cases op w0 ws with ⟨op', he⟩ | ⟨i, he, -⟩ <;> rw [he] <;> simp
    exact iff_of_false hok (not_not.mpr hm)
  · exact iff_of_true rfl hm

/-! ## The opcode map (R64 to R67) -/

/-- The reserved OP values are those of no opcode (R65, R66). -/
theorem Opcode.ofCode_eq_none_iff {v : Byte} : Opcode.ofCode v = none ↔
    v.toNat ∉ [0x01, 0x02, 0x03, 0x04, 0x05, 0x06, 0x07, 0x10, 0x11, 0x12, 0x20] := by
  change _ ↔ v.toNat ∉ Opcode.all.map fun op => op.code.toNat
  simp [Opcode.ofCode, BitVec.toNat_inj]

theorem commandLength_of_reserved {w0 : Word} (h : Opcode.ofCode (opField w0) = none) : commandLength w0 = 1 := by
  rw [commandLength, h]

theorem decodeCommand_eq_reserved_iff {w0 : Word} {ws : List Word} :
    decodeCommand (w0 :: ws) = .error .reservedOpcode ↔ Opcode.ofCode (opField w0) = none := by
  refine ⟨fun h => ?_, fun h => decodeCommand_reserved h ws⟩
  rcases decodeCommand_cases w0 ws with ⟨hnone, -⟩ | ⟨op, -, -, he⟩ | ⟨op, -, -, he⟩
  · exact hnone
  · rw [he] at h; cases h
  · rcases decodeOperands_cases op w0 ws with ⟨op', he'⟩ | ⟨i, he', -⟩ <;> rw [he, he'] at h <;> cases h

/-- Settles O6: the OP values of R66 are the bytes that are none of the eleven codes. -/
theorem reservedOpcodesRejected : Obligations.ReservedOpcodesRejected := by
  intro w0 ws
  rw [decodeCommand_eq_reserved_iff]
  refine ⟨?_, commandLength_of_reserved⟩
  have hbyte := (opField w0).isLt
  simp only [Opcode.ofCode_eq_none_iff, List.mem_cons, List.not_mem_nil, or_false]
  omega

/-- Settles O5, by the opcode that the header word names; `charWords` is the division of R63, rounded up. -/
theorem commandLengthFromHeader : Obligations.CommandLengthFromHeader := by
  intro w0
  cases h : Opcode.ofCode (opField w0) with
  | none =>
    have hcode := Opcode.ofCode_eq_none_iff.mp h
    simp only [List.mem_cons, List.not_mem_nil, or_false] at hcode ⊢
    rw [commandLength_of_reserved h]
    omega
  | some op =>
    rw [Opcode.ofCode_eq_some.mp h]
    cases op
    case drawText =>
      have hlen : commandLength w0 = 4 + charWords (aLow w0).toNat := by rw [commandLength, h]
      have hn := (aLow w0).isLt
      have hbounds : 4 * (commandLength w0 - 4) < (aLow w0).toNat + 4 ∧ (aLow w0).toNat ≤ 4 * (commandLength w0 - 4) ∧
          4 ≤ commandLength w0 ∧ commandLength w0 ≤ 68 := by
        unfold charWords at hlen
        omega
      simpa [Opcode.code, aLow] using hbounds
    all_goals simp [Opcode.code, commandLength, h]

/-! ## What the decoder accepts (R62, R68) -/

/-- Settles O3: the decoder accepts only where the operand decoder does. -/
theorem decodedCommandIsWellFormed : Obligations.DecodedCommandIsWellFormed := by
  intro cfg ws i h
  cases ws with
  | nil => cases h
  | cons w0 ws =>
    rcases decodeCommand_cases w0 ws with ⟨-, he⟩ | ⟨op, -, -, he⟩ | ⟨op, -, -, he⟩ <;> rw [he] at h
    · cases h
    · cases h
    · rcases decodeOperands_cases op w0 ws with ⟨op', he'⟩ | ⟨j, he', hcommand, hwf⟩ <;> rw [he'] at h <;> cases h
      exact ⟨hcommand, hwf cfg⟩

/-- Settles O4: the decoder, run on each list. -/
theorem sampleWordsDecode : Obligations.SampleWordsDecode := by
  unfold Obligations.SampleWordsDecode
  decide

/-! ## Bits that are ignored (R62, R63, R68) -/

/-- Character `k` stands in word `k / 4`, byte `k mod 4` (R63). -/
theorem unpackChars_getElem? (ws : List Word) (k : Nat) :
    (unpackChars ws)[k]? = (ws[k / 4]?).map fun v => v.extractLsb' (8 * (k % 4)) 8 := by
  induction ws generalizing k with
  | nil => rfl
  | cons v ws ih =>
    match k with
    | 0 | 1 | 2 | 3 => rfl
    | k + 4 =>
      rw [Nat.add_div_right k (by omega), Nat.add_mod_right]
      exact ih k

/-- Character words that agree in their first `n` characters unpack to the same `n` characters. -/
theorem take_unpackChars_congr {cs cs' : List Word} {n : Nat}
    (h : ∀ k, k < n → (cs[k / 4]?).map (fun v => v.extractLsb' (8 * (k % 4)) 8) =
      (cs'[k / 4]?).map (fun v => v.extractLsb' (8 * (k % 4)) 8)) :
    (unpackChars cs).take n = (unpackChars cs').take n := by
  refine List.ext_getElem? fun k => ?_
  rw [List.getElem?_take, List.getElem?_take]
  split_ifs with hk
  · rw [unpackChars_getElem?, unpackChars_getElem?, h k hk]
  · rfl

/-- Two lists of operand words that the operand decoder reads alike make commands that decode alike. -/
theorem decodeCommand_congr {w0 : Word} {op : Opcode} {ws ws' : List Word} (hop : (opField w0).toNat = op.code.toNat)
    (h : decodeOperands op w0 ws = decodeOperands op w0 ws') :
    decodeCommand (w0 :: ws) = decodeCommand (w0 :: ws') := by
  have hop := BitVec.eq_of_toNat_eq hop
  rw [decodeCommand_defined hop, decodeCommand_defined hop, h]

/-- Settles O8: of each of these words the operand decoder reads the low half, the low byte or the first `n`
characters. -/
theorem ignoredBitsDoNotMatter : Obligations.IgnoredBitsDoNotMatter := by
  refine ⟨fun w0 x y w h col f f' hop hf => ?_, fun w0 v v' hop hv => ?_, fun w0 x y col cs cs' hop hlen hchars => ?_⟩
  · have hlow : lowHalf f = lowHalf f' := hf
    refine decodeCommand_congr (op := .drawBar) hop ?_
    simp only [decodeOperands, operands6, hlow]
  · have hlow : lowByte v = lowByte v' := hv
    rcases hop with hop | hop
    · refine decodeCommand_congr (op := .setTime) hop ?_
      simp only [decodeOperands, operands1, hlow]
    · refine decodeCommand_congr (op := .heartbeat) hop ?_
      simp only [decodeOperands, operands1, hlow]
  · have htake : (unpackChars cs).take (aLow w0).toNat = (unpackChars cs').take (aLow w0).toNat :=
      take_unpackChars_congr hchars
    refine decodeCommand_congr (op := .drawText) hop ?_
    simp only [decodeOperands, operandsText, hlen, htake]

/-! ## The round trip (R61 to R65) -/

/-- The words after a header word whose fixed bits are right go to the operand decoder. -/
theorem decodeCommand_header {op : Opcode} {a : BitVec 16} {d b : BitVec 1}
    (h : header op a d b &&& op.mask = op.pattern) (ws : List Word) :
    decodeCommand (header op a d b :: ws) = decodeOperands op (header op a d b) ws := by
  rw [decodeCommand_defined (opField_header op a d b), if_pos h]

@[simp] theorem rsvField_header (op : Opcode) (a : BitVec 16) (d b : BitVec 1) : rsvField (header op a d b) = 0#6 := by
  refine BitVec.eq_of_getLsbD_eq fun i hi => ?_
  simp [rsvField, header_getLsbD, hi, show ¬ (10 + i < 8) by omega, show ¬ (10 + i < 9) by omega,
    show 10 + i < 16 by omega]

/-- A header word with `A = 0` has its fixed bits right in ROTATE_90CW and, with `D = 0`, in REDRAW (R65). -/
theorem header_fixed_noArgument {op : Opcode} {d : BitVec 1} (h : op = .rotate90cw ∨ (op = .redraw ∧ d = 0))
    (b : BitVec 1) : header op 0 d b &&& op.mask = op.pattern := by
  by_contra hne
  rcases h with rfl | ⟨rfl, rfl⟩ <;> simpa [BreaksFixedField] using (mask_ne_pattern_iff (opField_header ..)).mp hne

/-- Settles O1: the header word passes the check of its fixed bits, and each operand is read where it was put. -/
theorem commandDecodeEncode : Obligations.CommandDecodeEncode := by
  intro cfg i hcommand hwf
  cases i
  case clear | putPixel | drawChar | fillRect | drawBar =>
    refine (decodeCommand_header (header_fixed_renderer rfl _ _) _).trans ?_
    simp [decodeOperands, operands0, operands2, operands3, operands4, operands6]
  case drawText b x y text scale fg bg =>
    have hlen : text.length ≤ 255 := of_decide_eq_true hwf
    have hn : (BitVec.ofNat 8 text.length).toNat = text.length := by
      rw [BitVec.toNat_ofNat]
      omega
    refine (decodeCommand_header (header_fixed_renderer rfl _ _) _).trans ?_
    simp [decodeOperands, operandsText, hn, packChars_length, unpackChars_packChars]
  case rotate90cw =>
    refine (decodeCommand_header (header_fixed_noArgument (.inl rfl) _) _).trans ?_
    simp [decodeOperands, operands0]
  case setOrientation mode =>
    refine (decodeCommand_header (header_fixed_orientation mode) _).trans ?_
    simp [decodeOperands, operands0]
  case setTime | heartbeat =>
    refine (decodeCommand_header (header_fixed_time rfl _) _).trans ?_
    simp [decodeOperands, operands1]
  case redraw =>
    refine (decodeCommand_header (header_fixed_noArgument (.inr ⟨rfl, rfl⟩) _) _).trans ?_
    simp [decodeOperands, operands0]
  all_goals cases hcommand

/-! ## The command stream (R60, R64) -/

/-- The words of every well-formed command begin with a header word that tells their number. -/
theorem commandWords : ∀ i, Laws.CommandWords.Statement i
  | .clear b color => Laws.CommandWords.clear b color
  | .putPixel b x y color => Laws.CommandWords.putPixel b x y color
  | .drawChar b x y ch scale fg bg => Laws.CommandWords.drawChar b x y ch scale fg bg
  | .drawText b x y text scale fg bg => Laws.CommandWords.drawText b x y text scale fg bg
  | .fillRect b x y w h color => Laws.CommandWords.fillRect b x y w h color
  | .drawBar b x y w h percent fg bg frame => Laws.CommandWords.drawBar b x y w h percent fg bg frame
  | .rotate90cw src dst => Laws.CommandWords.rotate90cw src dst
  | .setOrientation mode => Laws.CommandWords.setOrientation mode
  | .setTime hour minute second => Laws.CommandWords.setTime hour minute second
  | .heartbeat hour minute second => Laws.CommandWords.heartbeat hour minute second
  | .redraw b => Laws.CommandWords.redraw b
  | .pktOrient mode => Laws.CommandWords.pktOrient mode
  | .pktTime hour minute second => Laws.CommandWords.pktTime hour minute second
  | .pktHeartbeat hour minute second => Laws.CommandWords.pktHeartbeat hour minute second
  | .pktStart tail data => Laws.CommandWords.pktStart tail data
  | .pktCont seq tail data => Laws.CommandWords.pktCont seq tail data
  | .pktEnd seq tail data => Laws.CommandWords.pktEnd seq tail data
  | .pktSingle tail data => Laws.CommandWords.pktSingle tail data

/-- Settles O2: the header word tells the number of the command's words. -/
theorem streamSplitsAfterCommand : Obligations.StreamSplitsAfterCommand := by
  intro cfg i rest hcommand hwf
  have hwords := commandWords i cfg hwf
  rw [if_pos hcommand] at hwords
  obtain ⟨w0, ws, hencode, hlen⟩ := hwords
  rw [hencode, splitCommand_append hlen]

end Sys2Proof
end

section
/-!
The packet decoder and encoder (spec/30_encoding.md R70 to R73): the round trip.
-/

namespace Sys2Proof

/-- Settles O46: a control packet is told by its code, a redraw packet by its code and its sequence number, which is 1
for START and SINGLE packets only (R71, R73). -/
theorem packetDecodeEncode : Obligations.PacketDecodeEncode := by
  refine ⟨fun cfg p hwf htime hheart hdiff hsingle => ?_, fun cfg tail data hwf hstart => ?_⟩
  · cases p with
    | orient mode => exact (decodePacket_control ..).trans (by simp [decodeControl])
    | time h m s =>
      have horient : cfg.timeCode ≠ codeOrient := htime
      exact (decodePacket_control ..).trans (by simp [decodeControl, horient])
    | heartbeat h m s =>
      have horient : cfg.heartbeatCode ≠ codeOrient := hheart
      exact (decodePacket_control ..).trans (by simp [decodeControl, horient, hdiff.symm])
    | start tail data =>
      have hlen : data.length = cfg.chunk := by simpa [Packet.wellFormed] using hwf
      exact (decodePacket_redraw hlen ..).trans (by simp [decodeRedraw])
    | cont seq tail data =>
      obtain ⟨-, hlen⟩ : 2 ≤ seq.toNat ∧ data.length = cfg.chunk := by simpa [Packet.wellFormed] using hwf
      exact (decodePacket_redraw hlen ..).trans (by simp [decodeRedraw, codeStart, codeCont])
    | last seq tail data =>
      obtain ⟨hseq, hlen⟩ : 2 ≤ seq.toNat ∧ data.length = cfg.chunk := by simpa [Packet.wellFormed] using hwf
      have hne : seq ≠ 1#8 := by rintro rfl; exact absurd hseq (by decide)
      exact (decodePacket_redraw hlen ..).trans (by simp [decodeRedraw, codeStart, codeCont, codeEnd, hne])
    | single tail data =>
      have hlen : data.length = cfg.chunk := by simpa [Packet.wellFormed] using hwf
      have hstop : cfg.singleCode = .stop := by
        cases h : cfg.singleCode with
        | start => exact absurd rfl (hsingle h tail data)
        | stop => rfl
      refine (decodePacket_redraw hlen ..).trans ?_
      simp [hstop, SingleCode.code, decodeRedraw, codeStart, codeCont, codeEnd]
  · have hlen : data.length = cfg.chunk := by simpa [Packet.wellFormed] using hwf
    refine (decodePacket_redraw hlen ..).trans ?_
    simp [hstart, SingleCode.code, decodeRedraw, codeStart]

end Sys2Proof
end

section
/-!
A step, where the engine takes a command's words (spec/30_encoding.md R60) and where the host takes the response (R69).
-/

namespace Sys2Proof.Machine

/-- The idle engine's turn is a step in which it takes from the port (R60). -/
theorem step_of_idle {s : State} {ts : List Turn} (hmoves : EngineMoves s ts) (hidle : s.engine = .idle) :
    step s = takeCommand { s with turns := ts } :=
  (step_of_engineMoves hmoves).trans (engineTurn_idle hidle)

/-- Settles O9: the engine takes the whole command and runs what it decodes to. -/
theorem stepRunsDecodedCommand : Obligations.StepRunsDecodedCommand := by
  intro s ts cmd rest i hmoves hidle hresponse hsplit hdecode
  calc step s = takeCommand { s with turns := ts } := step_of_idle hmoves hidle
    _ = runCommand cmd { s with words := cmd, port := rest, turns := ts } := takeCommand_whole hresponse hsplit
    _ = exec i { s with words := cmd, port := rest, turns := ts } := runCommand_ok hdecode _

/-- Settles O12: the engine takes what is offered and waits. -/
theorem engineWaitsForMissingWords : Obligations.EngineWaitsForMissingWords :=
  fun _ _ hmoves hidle hresponse hsplit =>
    (step_of_idle hmoves hidle).trans (takeCommand_waiting hresponse hsplit)

/-- A step in which the host takes the waiting response, by its turn or because no turn is listed. -/
theorem step_hostTake {s : State} {ts : List Turn} (hresponse : s.response.isSome = true)
    (hturns : s.turns = .host .take :: ts ∨ (s.turns = [] ∧ ts = [])) :
    step s = .next (hostTake { s with turns := ts }) := by
  unfold step
  rcases hturns with hturns | ⟨hturns, rfl⟩ <;> rw [hturns]
  · rfl
  · have hself : { s with turns := [] } = s := by rw [← hturns]
    rw [hself]
    exact if_pos hresponse

/-- Settles O14: such a step is `hostTake`, which records the command with its response. -/
theorem hostTakesResponse : Obligations.HostTakesResponse := fun _ _ _ hresponse hturns =>
  (step_hostTake (Option.isSome_of_eq_some hresponse) hturns).trans (congrArg _ (hostTake_some hresponse))

end Sys2Proof.Machine
end

section
/-!
The assembler (spec/30_encoding.md R74, R75): the operands that fit their fields, the operands it accepts, and the
command it makes of them.
-/

namespace Sys2Proof.Machine

/-! ## Fields (R62, R74) -/

theorem unsignedField_isSome_iff {n : Nat} {v : Int} :
    (unsignedField n v).isSome = true ↔ 0 ≤ v ∧ v < 2 ^ n := by
  unfold unsignedField
  split_ifs with hv <;> simp [hv]

theorem signedField_isSome_iff {n : Nat} {v : Int} :
    (signedField n v).isSome = true ↔ -2 ^ n ≤ 2 * v ∧ 2 * v < 2 ^ n := by
  unfold signedField
  split_ifs with hv <;> simp [hv]

theorem unsignedField_isSome_u8 {v : Int} : (unsignedField 8 v).isSome = true ↔ fitsU8 v := by
  rw [unsignedField_isSome_iff]
  omega

theorem unsignedField_isSome_u16 {v : Int} : (unsignedField 16 v).isSome = true ↔ fitsU16 v := by
  rw [unsignedField_isSome_iff]
  omega

theorem signedField_isSome_s16 {v : Int} : (signedField 16 v).isSome = true ↔ fitsS16 v := by
  rw [signedField_isSome_iff]
  omega

theorem signedField_isSome_s32 {v : Int} : (signedField 32 v).isSome = true ↔ fitsS32 v := by
  rw [signedField_isSome_iff]
  omega

/-- An unsigned field holds exactly its value. -/
theorem unsignedField_eq_some_iff {n : Nat} {v : Int} {f : BitVec n} : unsignedField n v = some f ↔ v = f.toNat := by
  unfold unsignedField
  constructor
  · intro h
    split_ifs at h with hv
    obtain rfl := Option.some.inj h
    have hmod : v % (2 ^ n : Nat) = v := Int.emod_eq_of_lt hv.1 (by exact_mod_cast hv.2)
    rw [BitVec.toNat_ofInt, hmod, Int.toNat_of_nonneg hv.1]
  · rintro rfl
    rw [if_pos ⟨by omega, by exact_mod_cast f.isLt⟩]
    simp

/-- A two's-complement field holds exactly its value. -/
theorem signedField_eq_some_iff {n : Nat} {v : Int} {f : BitVec n} : signedField n v = some f ↔ v = f.toInt := by
  unfold signedField
  constructor
  · intro h
    split_ifs at h with hv
    obtain rfl := Option.some.inj h
    rw [BitVec.toInt_ofInt, Int.bmod_eq_of_le_mul_two] <;> push_cast <;> omega
  · rintro rfl
    rw [if_pos ⟨BitVec.le_two_mul_toInt, BitVec.two_mul_toInt_lt⟩, BitVec.ofInt_toInt]

/-- Whether a computation succeeds whose rest succeeds or fails whatever its first result is. -/
theorem any_const {α : Type} (o : Option α) (c : Bool) : (o.any fun _ => c) = (o.isSome && c) := by
  cases o <;> simp

theorem mapM_unsignedField_isSome_iff {n : Nat} {vs : List Nat} :
    (vs.mapM (unsignedField n ∘ Nat.cast)).isSome = true ↔ ∀ v ∈ vs, v < 2 ^ n := by
  induction vs with
  | nil => simp
  | cons v vs ih =>
    have hv : (unsignedField n v).isSome = true ↔ v < 2 ^ n := by
      rw [unsignedField_isSome_iff]
      exact_mod_cast and_iff_right (Nat.zero_le v)
    simp [Option.isSome_bind, any_const, hv, ih]

theorem mapM_unsignedField_eq_some_iff {n : Nat} {vs : List Nat} {fs : List (BitVec n)} :
    (vs.mapM (unsignedField n ∘ Nat.cast)) = some fs ↔ vs = fs.map BitVec.toNat := by
  induction vs generalizing fs with
  | nil => simp [eq_comm]
  | cons v vs ih => cases fs <;> simp [Option.bind_eq_some_iff, unsignedField_eq_some_iff, ih]

/-- The model's `do` over a string's codes, which are natural numbers, reads each as an integer. -/
theorem textField_eq (vs : List Nat) :
    textField vs = if vs.length ≤ 255 then vs.mapM (unsignedField 8 ∘ Nat.cast) else none := by
  rw [← List.mapM_map, List.map_eq_flatMap]
  rfl

theorem textField_isSome_iff {vs : List Nat} :
    (textField vs).isSome = true ↔ vs.length ≤ 255 ∧ ∀ v ∈ vs, v ≤ 255 := by
  rw [textField_eq]
  split_ifs with hlen
  · rw [mapM_unsignedField_isSome_iff]
    simp [hlen, Nat.lt_succ_iff]
  · simp [hlen]

theorem textField_eq_some_iff {vs : List Nat} {text : List Byte} :
    textField vs = some text ↔ text.length ≤ 255 ∧ vs = text.map BitVec.toNat := by
  rw [textField_eq]
  split_ifs with hlen
  · rw [mapM_unsignedField_eq_some_iff, iff_and_self]
    rintro rfl
    simpa using hlen
  · refine iff_of_false (by simp) ?_
    rintro ⟨htext, rfl⟩
    exact hlen (by rwa [List.length_map])

/-! ## Commands (R74) -/

/-- The assembler accepts exactly the operands that fit. -/
theorem assembleCommand_isSome_iff (op : Opcode) (os : List Operand) :
    (assembleCommand op os).isSome = true ↔ operandsFit op os := by
  fun_cases assembleCommand op os <;>
    simp [operandsFit, Option.isSome_bind, any_const, unsignedField_isSome_u8, unsignedField_isSome_u16,
      signedField_isSome_s16, signedField_isSome_s32, textField_isSome_iff, and_assoc]

/-- `i` is the command of the opcode `op` with the operands `os`, each at its exact value. -/
structure Assembles (op : Opcode) (os : List Operand) (i : Instr) : Prop where
  isCommand  : i.isCommand = true
  wellFormed : ∀ cfg, i.wellFormed cfg = true
  operands   : assemblerOperands i = os
  header     : ∃ w ws, encodeCommand i = w :: ws ∧ opField w = op.code

/-- What the assembler accepts is that command: each field it fills stands for exactly one number. -/
theorem assembles_of_assembleCommand {op : Opcode} {os : List Operand} {i : Instr}
    (h : assembleCommand op os = some i) : Assembles op os i := by
  revert i
  fun_cases assembleCommand op os
  case case12 => simp -- operands of a wrong number or kind
  all_goals
    simp only [Option.bind_eq_bind, Option.bind_eq_some_iff, Option.pure_def, Option.some.injEq,
      unsignedField_eq_some_iff, signedField_eq_some_iff, textField_eq_some_iff, forall_exists_index, and_imp]
    intros
    subst_vars
  case case4 => exact ⟨rfl, fun _ => decide_eq_true ‹_›, rfl, _, _, rfl, opField_header ..⟩ -- DRAW_TEXT
  all_goals exact ⟨rfl, fun _ => rfl, rfl, _, _, rfl, opField_header ..⟩

/-- Settles O58. What the assembler accepts is a command of at most 255 characters, by `Assembles`. -/
theorem assembledCommandIsWellFormed : Obligations.AssembledCommandIsWellFormed := fun cfg _ _ _ h =>
  have hasm := assembles_of_assembleCommand h
  ⟨hasm.isCommand, hasm.wellFormed cfg⟩

/-- Only the two names are framebuffers. -/
theorem operandOf_eq_fb_iff (t : Token) (b : Fb) : operandOf t = some (.fb b) ↔
    t = .name (match b with
      | .fb0 => ['f', 'b', '0']
      | .fb1 => ['f', 'b', '1']) := by
  cases t with
  | name cs =>
    simp only [operandOf]
    split_ifs with h0 h1
    · subst h0; cases b <;> simp
    · subst h1; cases b <;> simp
    · cases b <;> simp [h0, h1]
  | comma | chr | str => simp [operandOf]

/-- Settles O59: the assembler accepts what fits, and what it accepts is the command of its operands. -/
theorem assemblerRefusesMisfits : Obligations.AssemblerRefusesMisfits := by
  refine ⟨fun op os => ⟨fun hmisfit => ?_, fun hfit => ?_⟩, operandOf_eq_fb_iff⟩
  · rwa [← assembleCommand_isSome_iff, Option.not_isSome_iff_eq_none] at hmisfit
  · obtain ⟨i, hi⟩ := Option.isSome_iff_exists.mp ((assembleCommand_isSome_iff op os).mpr hfit)
    have hasm := assembles_of_assembleCommand hi
    exact ⟨i, hi, hasm.operands, hasm.header⟩

/-- Settles O60: the pseudo-instruction picks the opcode by `is_set_time`. -/
theorem timeOrHeartbeatExpands : Obligations.TimeOrHeartbeatExpands := fun _ _ =>
  ⟨fun hset => by rw [assembleTimeOrHeartbeat, if_pos hset],
    fun hbeat => by rw [assembleTimeOrHeartbeat, if_neg (not_not.mpr hbeat)]⟩

end Sys2Proof.Machine
end

section
/-!
The renderer commands (spec/40_renderer.md R100 to R112): the picture each leaves, the foreground width of a bar, the
text laws, the rotation laws, and the response, which no pixel reaches.
-/

namespace Sys2Proof.Machine

/-! ## The end of a drawing command -/

/-- A drawing command returns STATUS 0 and its CURSOR_X and emits nothing, whatever it paints (R100, R170). -/
theorem finish_paint_returns (s : State) (b : Fb) (op : Nat → Nat → Memory → Memory) (cur : Word) :
    Returned s (finish .ok 0 { s.paint b op with cursorX := cur }) 0 cur ∧
      EmitsNothing s (finish .ok 0 { s.paint b op with cursorX := cur }) := by
  rw [← statusWord_ok]
  exact ⟨paint_returned s b op .ok 0 cur, paint_emitsNothing s b op .ok 0 cur⟩

/-- The same of a drawing command that leaves CURSOR_X. -/
theorem finish_paint_returns_self (s : State) (b : Fb) (op : Nat → Nat → Memory → Memory) :
    Returned s (finish .ok 0 (s.paint b op)) 0 s.cursorX ∧ EmitsNothing s (finish .ok 0 (s.paint b op)) := by
  rw [paint_cursorX_self]
  exact finish_paint_returns s b op s.cursorX

/-- A command that draws nothing returns its code, leaves CURSOR_X and emits nothing (R170). -/
theorem finish_returns (code : Code) (idx : Nat) (s : State) :
    Returned s (finish code idx s) (statusWord code idx) s.cursorX ∧ EmitsNothing s (finish code idx s) :=
  ⟨⟨rfl, rfl, rfl, rfl, rfl, rfl, rfl, rfl, rfl, rfl⟩, rfl, rfl⟩

/-- From what the drawing paints: the picture, STATUS 0 with the new CURSOR_X, and no packet (R104, R105). -/
theorem finish_paint_cursor_effect {s : State} {b : Fb} {op : Nat → Nat → Memory → Memory}
    {f : Int → Int → Option Color}
    (h : Paints (s.cfg.width b) (s.cfg.height b) (s.fb b) (op (s.cfg.width b) (s.cfg.height b) (s.fb b)) f)
    (cur : Word) :
    DrawsOnly s (finish .ok 0 { s.paint b op with cursorX := cur }) b f ∧
      Returned s (finish .ok 0 { s.paint b op with cursorX := cur }) 0 cur ∧
      EmitsNothing s (finish .ok 0 { s.paint b op with cursorX := cur }) :=
  ⟨paint_drawsOnly h .ok 0 cur, finish_paint_returns s b op cur⟩

/-! ## CLEAR, FILL_RECT and DRAW_BAR -/

/-- Settles O16: CLEAR paints every cell (`clearCells_paints`). -/
theorem clearFillsFramebuffer : Obligations.ClearFillsFramebuffer := fun _ color _ hwithin =>
  ⟨_, rfl, finish_paint_effect (clearCells_paints hwithin color)⟩

/-- Settles O23: the rectangle primitive paints exactly the rectangle, clipped (`fillRect_paints`). -/
theorem fillRectPaintsRectangle : Obligations.FillRectPaintsRectangle := fun _ x y w h color _ =>
  ⟨_, rfl, finish_paint_effect (fillRect_paints _ _ _ (s32 x) (s32 y) (s32 w) (s32 h) color)⟩

/-- Settles O24: the bar's three layers paint one picture (`drawBar_paints`). -/
theorem drawBarPaintsBar : Obligations.DrawBarPaintsBar := fun _ x y w h percent fg bg frame _ =>
  ⟨_, rfl, finish_paint_effect
    (drawBar_paints _ _ _ (s32 x) (s32 y) (s32 w) (s32 h) (percentOf percent) fg bg frame)⟩

/-! ## The foreground width of a bar (R108) -/

theorem barFill_of_nonpos {w : Int} (hw : w ≤ 0) (percent : Int) : barFill percent w = 0 := if_pos hw

theorem barFill_of_pos {w : Int} (hw : 0 < w) (percent : Int) :
    barFill percent w = (clamp percent 0 100 * w + 50) / 100 := if_neg (by omega)

/-- The percent that a bar shows is `percent` brought into 0 to 100 (R12). -/
theorem clamp_percent {percent p : Int}
    (h : (p = percent ∧ 0 ≤ percent ∧ percent ≤ 100) ∨ (p = 0 ∧ percent < 0) ∨ (p = 100 ∧ 100 < percent)) :
    clamp percent 0 100 = p := by
  unfold clamp
  omega

/-- Settles O25: BarFill is a quotient by 100, and the clamped percent is 0 or 100 beyond the ends of its range. -/
theorem barFillRoundsHalfUp : Obligations.BarFillRoundsHalfUp := by
  refine fun percent w => ⟨fun hw => barFill_of_nonpos hw percent, fun hw => ?_⟩
  obtain ⟨hnonneg, hle⟩ := barFill_bounds percent w
  refine ⟨fun p hp => ?_, hnonneg, hle hw.le, fun hlow => ?_, fun hhigh => ?_⟩
  · rw [barFill_of_pos hw, clamp_percent hp]
    omega
  · rw [barFill_of_pos hw, clamp_percent (p := 0) (by omega)]
    omega
  · rw [barFill_of_pos hw, clamp_percent (p := 100) (by omega)]
    omega

/-! ## Characters and text (R103 to R105, R112) -/

/-- Settles O18: the rasterizer paints the whole character cell (`drawCell_paints`). -/
theorem drawCharPaintsCell : Obligations.DrawCharPaintsCell := fun _ x y ch scale fg bg s =>
  ⟨_, rfl, finish_paint_cursor_effect
    (drawCell_paints _ _ _ (s32 x) (s32 y) (glyphCols s.cfg ch) (u8_nonneg scale) fg bg) _⟩

@[simp] theorem glyphBit_blankGlyph (c r : Nat) : glyphBit blankGlyph c r = false := by
  unfold glyphBit glyphColumn
  split <;> exact BitVec.getLsbD_zero

/-- A blank cell is a rectangle of background (R104). -/
theorem cellPaint_blankGlyph (x y scale : Int) (fg bg : Color) :
    cellPaint blankGlyph x y scale fg bg = rectPaint x y (6 * scale) (7 * scale) bg := by
  funext px py
  simp only [cellPaint, rectPaint, glyphBit_blankGlyph, Bool.false_eq_true, if_false]

/-- Settles O19: without a glyph the character is the blank one, whose cell is background. -/
theorem unsupportedCharIsBackground : Obligations.UnsupportedCharIsBackground := by
  intro b x y ch scale fg bg s hnone
  have hblank : glyphCols s.cfg ch = blankGlyph := glyphCols_of_lookup_none hnone
  have hdraw := drawCharPaintsCell b x y ch scale fg bg s
  rwa [hblank, cellPaint_blankGlyph] at hdraw

/-- Settles O21: the characters' cells together paint one picture (`drawTextFrom_paints`). -/
theorem drawTextPaintsCells : Obligations.DrawTextPaintsCells := fun _ x y text scale fg bg s =>
  ⟨_, rfl, finish_paint_cursor_effect
    (drawTextFrom_paints s.cfg _ _ (s32 x) (s32 y) (u8_nonneg scale) fg bg 0 text _) _⟩

/-- The last character of a string is drawn last, at its own place (R105). -/
theorem drawTextFrom_concat (cfg : Config) (wd ht : Nat) (x y scale : Int) (fg bg : Color) (k : Nat)
    (text : List Byte) (ch : Byte) (m : Memory) :
    drawTextFrom cfg wd ht x y scale fg bg k (text ++ [ch]) m =
      drawCell wd ht (drawTextFrom cfg wd ht x y scale fg bg k text m) (x + 6 * scale * (k + text.length : Nat)) y
        (glyphCols cfg ch) scale fg bg := by
  induction text generalizing k m with
  | nil => rfl
  | cons c text ih =>
    refine (ih (k + 1) _).trans ?_
    rw [List.length_cons, show k + 1 + text.length = k + (text.length + 1) by omega]
    rfl

/-- Two drawing commands on one framebuffer leave what the two drawings as one command leave. -/
theorem finish_paint_finish_paint (s : State) (b : Fb) (op op' : Nat → Nat → Memory → Memory) (cur cur' : Word) :
    finish .ok 0 { (finish .ok 0 { s.paint b op with cursorX := cur }).paint b op' with cursorX := cur' } =
      finish .ok 0 { s.paint b (fun wd ht m => op' wd ht (op wd ht m)) with cursorX := cur' } := by
  cases b <;> rfl

/-- Settles O22: DRAW_TEXT's loop draws the last character as DRAW_CHAR does, and both add its width to CURSOR_X. -/
theorem textIsItsCharacters : Obligations.TextIsItsCharacters := by
  intro b x x' y text ch scale fg bg s hx'
  refine ⟨_, rfl, congrArg Host.Outcome.next ?_⟩
  have hx : s32 x' = s32 x + 6 * u8 scale * text.length := hx'
  have hcursor : s32 x + 6 * u8 scale * (text ++ [ch]).length = s32 x' + 6 * u8 scale := by
    rw [hx, List.length_append, List.length_singleton]
    push_cast
    ring
  refine Eq.trans ?_ (finish_paint_finish_paint s b _ _ _ _).symm
  simp only [drawTextFrom_concat, Nat.zero_add, ← hx, hcursor, finish_cfg, State.paint_cfg]

/-! ## Rotation (R110, R111) -/

/-- A rotation between different framebuffers of transposed dimensions completes (R110). -/
theorem exec_rotate90cw_of_transposed {s : State} {src dst : Fb} (hne : src ≠ dst)
    (hw : s.cfg.width dst = s.cfg.height src) (hh : s.cfg.height dst = s.cfg.width src) :
    exec (.rotate90cw src dst) s =
      .next (finish .ok 0 (s.paint dst fun wd ht _ => rotateCells wd ht (s.fb src))) :=
  if_pos (decide_eq_true ⟨hne, hw, hh⟩)

/-- The read map of R110: source cell `(x, y)` stands at `(W[d]-1-y, x)`, `ht` being the source's width. -/
theorem rotateCells_cell_clockwise {wd ht : Nat} (src : Memory) {x y : Nat} (hx : x < ht) (hy : y < wd) :
    (rotateCells wd ht src).cell wd (wd - 1 - y) x = src.cell ht x y := by
  rw [rotateCells_cell src (by omega) hx, show wd - 1 - (wd - 1 - y) = y by omega]

/-- Two rotations of the cells turn a picture of `wd × ht` cells by 180° (R111 law 3). -/
theorem rotateCells_twice_cell {wd ht : Nat} (m : Memory) {x y : Nat} (hx : x < wd) (hy : y < ht) :
    (rotateCells wd ht (rotateCells ht wd m)).cell wd x y = m.cell wd (wd - 1 - x) (ht - 1 - y) := by
  rw [rotateCells_cell _ hx hy, rotateCells_cell m hy (by omega)]

/-- Four rotations of the cells give the picture back: two half turns (R111 law 4). -/
theorem rotateCells_four_times {wd ht : Nat} {m : Memory} (hwf : m.wf) (hwithin : m.within (wd * ht)) :
    rotateCells wd ht (rotateCells ht wd (rotateCells wd ht (rotateCells ht wd m))) = m := by
  refine Memory.ext_of_read (rotateCells_wf ..) hwf fun k => ?_
  by_cases hk : k < wd * ht
  · obtain ⟨x, y, hx, hy, rfl⟩ := exists_cellIndex hk
    change Memory.cell _ wd x y = m.cell wd x y
    rw [rotateCells_twice_cell _ hx hy, rotateCells_twice_cell m (by omega) (by omega),
      show wd - 1 - (wd - 1 - x) = x by omega, show ht - 1 - (ht - 1 - y) = y by omega]
  · rw [Memory.read_of_within (rotateCells_within wd ht _) (by omega), Memory.read_of_within hwithin (by omega)]

/-- Settles O26: the destination is the rotated source (`rotateCells_cell_clockwise`), and nothing else is drawn. -/
theorem rotateCopiesClockwise : Obligations.RotateCopiesClockwise := by
  intro src dst s hne hw hh hwithin
  refine ⟨_, exec_rotate90cw_of_transposed hne hw hh, by simp [hne], fun x y hx hy => ?_, fun k hk => ?_,
    finish_paint_returns_self s dst _⟩
  · rw [← hh] at hx
    rw [← hw] at hy
    simpa [hh] using rotateCells_cell_clockwise (s.fb src) hx hy
  · simpa [Memory.read_of_within hwithin hk] using Memory.read_of_within (rotateCells_within _ _ (s.fb src)) hk

/-- A rotation there and one back rotate the first framebuffer's cells twice. -/
theorem exec_rotate90cw_there_and_back {s : State} {a b : Fb} (hne : a ≠ b) (hw : s.cfg.width b = s.cfg.height a)
    (hh : s.cfg.height b = s.cfg.width a) :
    ∃ s1 s2, exec (.rotate90cw a b) s = .next s1 ∧ exec (.rotate90cw b a) s1 = .next s2 ∧ s2.cfg = s.cfg ∧
      s2.fb a = rotateCells (s.cfg.width a) (s.cfg.height a)
        (rotateCells (s.cfg.height a) (s.cfg.width a) (s.fb a)) := by
  refine ⟨_, _, exec_rotate90cw_of_transposed hne hw hh, exec_rotate90cw_of_transposed hne.symm ?_ ?_, ?_, ?_⟩
  · simpa using hh.symm
  · simpa using hw.symm
  · simp
  · simp [hw, hh]

/-- Settles O28, by the half turn of the cells. -/
theorem twoRotationsTurnHalf : Obligations.TwoRotationsTurnHalf := by
  intro a b s hne hw hh
  obtain ⟨s1, s2, h1, h2, -, hfb⟩ := exec_rotate90cw_there_and_back hne hw hh
  refine ⟨s1, s2, h1, h2, fun x y hx hy => ?_⟩
  rw [hfb]
  exact rotateCells_twice_cell (s.fb a) hx hy

/-- Settles O29: the second there and back undoes the first. -/
theorem fourRotationsRestore : Obligations.FourRotationsRestore := by
  intro a b s hne hw hh hwf hwithin
  obtain ⟨s1, s2, h1, h2, hcfg, hfb⟩ := exec_rotate90cw_there_and_back hne hw hh
  rw [← hcfg] at hw hh
  obtain ⟨s3, s4, h3, h4, -, hfb'⟩ := exec_rotate90cw_there_and_back hne hw hh
  refine ⟨s1, s2, s3, s4, h1, h2, h3, h4, ?_⟩
  rw [hfb', hfb, hcfg]
  exact rotateCells_four_times hwf hwithin

/-! ## The response (R100) -/

/-- The STATUS and CURSOR_X of a renderer command's return are told by the command, the configuration and CURSOR_X. -/
theorem renderer_returns {i : Instr} (hi : isRenderer i = true) (cfg : Config) (cursor : Word) :
    ∃ st cur, ∀ s : State, s.cfg = cfg → s.cursorX = cursor →
      ∃ t, exec i s = .next t ∧ Returned s t st cur ∧ EmitsNothing s t := by
  cases i
  case clear | putPixel | fillRect | drawBar =>
    refine ⟨0, cursor, fun s _ hcursor => ⟨_, rfl, ?_⟩⟩
    subst hcursor
    exact finish_paint_returns_self s _ _
  case drawChar | drawText =>
    exact ⟨0, _, fun s _ _ => ⟨_, rfl, finish_paint_returns s _ _ _⟩⟩
  case rotate90cw src dst =>
    by_cases hfit : rotatable cfg src dst = true
    · refine ⟨0, cursor, fun s hcfg hcursor => ?_⟩
      subst hcfg hcursor
      exact ⟨_, if_pos hfit, finish_paint_returns_self s _ _⟩
    · refine ⟨statusWord .rotateGeometry 0, cursor, fun s hcfg hcursor => ?_⟩
      subst hcfg hcursor
      exact ⟨_, if_neg hfit, finish_returns .rotateGeometry 0 s⟩
  all_goals cases hi

/-- Settles O30: the two states have one configuration and one CURSOR_X, so both runs return the same. -/
theorem rendererResponseIgnoresPixels : Obligations.RendererResponseIgnoresPixels := by
  intro i s m0 m1 hi
  obtain ⟨st, cur, hreturns⟩ := renderer_returns hi s.cfg s.cursorX
  obtain ⟨t, ht, hret, hemit⟩ := hreturns s rfl rfl
  obtain ⟨t', ht', hret', hemit'⟩ := hreturns { s with fb0 := m0, fb1 := m1 } rfl rfl
  exact ⟨t, t', ht, ht', hret.engine, Option.isSome_of_eq_some hret.response, hret'.response.trans hret.response.symm,
    hret'.cursorX.trans hret.cursorX.symm, hemit, hemit'.emits, hemit'.answers⟩

end Sys2Proof.Machine
end

section
/-!
The transfer plan of a REDRAW (spec/41_protocol.md R144 to R148, R150): its lengths, which tile the frame, the default
HDR_TAIL, and the bytes of its packets.
-/

namespace Sys2Proof.Machine

variable {cfg : Config} {b : Fb} {frame : List Byte} {i n : Nat}

/-! ## Lengths (R144, R150) -/

theorem planLen_of_succ_lt (h : i + 1 < planCount cfg b) : planLen cfg b i = cfg.chunk := if_pos h

theorem planLen_of_succ_eq (h : i + 1 = planCount cfg b) : planLen cfg b i = frameSize cfg b - cfg.chunk * i := by
  rw [planLen, if_neg h.not_lt, ← h, Nat.add_sub_cancel]

/-- The payloads before packet `n` have `C × n` bytes in all, which is `offset_n` (R150 law 3). -/
theorem planLen_sum_before (h : n < planCount cfg b) :
    ((List.range n).map (planLen cfg b)).sum = cfg.chunk * n := by
  induction n with
  | zero => rfl
  | succ n ih =>
    rw [List.range_succ, List.map_append, List.sum_append, ih (by omega), List.map_singleton, List.sum_singleton,
      planLen_of_succ_lt h, Nat.mul_succ]

/-- A plan of a frame with bytes has a last packet. -/
theorem exists_lastPacket (hF : 0 < frameSize cfg b) (hC : 0 < cfg.chunk) : ∃ n, n + 1 = planCount cfg b := by
  obtain ⟨hN, -, -⟩ := planCount_bounds hF hC
  exact ⟨planCount cfg b - 1, by omega⟩

/-- Settles O40: the payloads before the last packet sum to its offset, and the last payload ends with the frame. -/
theorem planTilesFrame : Obligations.PlanTilesFrame := by
  intro cfg b hF hF'
  have hC : 0 < cfg.chunk := by omega
  refine ⟨?_, fun i _ => planLen_bounds hF hC, fun i hi => ?_, planCount_le hF hF'⟩
  · obtain ⟨n, hn⟩ := exists_lastPacket hF hC
    rw [← hn, List.range_succ, List.map_append, List.sum_append, planLen_sum_before (by omega), List.map_singleton,
      List.sum_singleton, planLen_last hF hC hn]
  · rw [planLen_of_succ_lt hi, Nat.mul_succ]

/-- Settles O41: 108800 is 26 times 4096 and 2304 more. -/
theorem defaultPlan : Obligations.DefaultPlan := by
  intro b
  have hF : frameSize Config.default b = 108800 := by cases b <;> rfl
  have hN : planCount Config.default b = 27 := by rw [planCount, hF]; rfl
  refine ⟨hF, hN, fun i hi => planLen_of_succ_lt (by omega), ?_⟩
  rw [planLen_of_succ_eq hN.symm, hF]
  rfl

/-- Under a valid configuration a packet carries data, and a frame has bytes and fits 255 packets (R6, R7). -/
theorem configValid_sizes (h : configValid cfg = true) (b : Fb) :
    0 < cfg.chunk ∧ 0 < frameSize cfg b ∧ frameSize cfg b ≤ 255 * cfg.chunk := by
  obtain ⟨hC, -, hfb⟩ := (configValid_iff cfg).mp h
  obtain ⟨-, -, -, -, hF, hF'⟩ := hfb b
  exact ⟨hC, hF, hF'⟩

/-! ## HDR_TAIL (R147) -/

theorem hdrTail_of_empty (h : cfg.hdrTail = []) (i sent len : Nat) :
    hdrTail cfg i sent len = hdrTailDefault sent len cfg.chunk := by
  rw [hdrTail, h]
  rfl

/-- A payload counts one full chunk or none. -/
theorem payload_div_chunk {len chunk : Nat} (hC : 0 < chunk) (hlen : len ≤ chunk) :
    len / chunk = if len = chunk then 1 else 0 := by
  split_ifs with hfull
  · rw [hfull, Nat.div_self hC]
  · exact Nat.div_eq_of_lt (by omega)

/-- Settles O38: the offset `C × i` counts `i` chunks, which fit one byte. -/
theorem defaultHeaderTail : Obligations.DefaultHeaderTail := by
  intro cfg i len hempty hC hi hlen
  rw [hdrTail_of_empty hempty, hdrTailDefault, Nat.mul_div_cancel_left i hC, Nat.div_eq_of_lt (by omega : i < 256),
    payload_div_chunk hC hlen]
  split_ifs <;> rfl

/-! ## The bytes of a packet (R70, R71, R145, R148) -/

/-- The code byte of packet `i` (R145). -/
def planCode (cfg : Config) (b : Fb) (i : Nat) : Byte :=
  if planCount cfg b = 1 then cfg.singleCode.code
  else if i = 0 then codeStart
  else if i + 1 = planCount cfg b then codeEnd
  else codeCont

/-- A packet of the plan, whatever its kind, has sequence number `i + 1` and the plan's code, tail and data region. -/
theorem packetBytes_redrawPacket (frame : List Byte) (sent : Nat) (hi : i < planCount cfg b) :
    packetBytes cfg (redrawPacket cfg b frame i sent) =
      redrawBytes (planCode cfg b i) (BitVec.ofNat 8 (i + 1)) (hdrTail cfg i sent (planLen cfg b i))
        (planData cfg frame sent (planLen cfg b i)) := by
  unfold redrawPacket planCode
  split_ifs with hsingle hfirst
  · obtain rfl : i = 0 := by omega
    rfl
  · subst hfirst
    rfl
  · rfl
  · rfl

/-- Every packet of the plan has `8 + C` bytes (R70). -/
theorem planPacket_length (hframe : frame.length = frameSize cfg b) (hF : 0 < frameSize cfg b) (hC : 0 < cfg.chunk)
    (hi : i < planCount cfg b) :
    (packetBytes cfg (redrawPacket cfg b frame i (cfg.chunk * i))).length = 8 + cfg.chunk := by
  rw [redrawPacket_length, planData_length (hframe ▸ planLen_end hF hC hi) (planLen_bounds hF hC).2]

/-- Settles O37: `N` and `len` are the plan's, and the packet's bytes are its header and its data region. -/
theorem redrawPacketBytes : Obligations.RedrawPacketBytes := by
  intro cfg b frame i N len code tail hframe hC hpos _ hN hi hlen hcode htail
  have hframe : frame.length = frameSize cfg b := hframe
  have hN : N = planCount cfg b := by rw [hN, hframe]; rfl
  have hi : i < planCount cfg b := hN ▸ hi
  have hlen : len = planLen cfg b i := by
    rw [hlen, hN, hframe, planLen]
    exact if_congr (by omega) rfl rfl
  have hcode : code = planCode cfg b i := by
    rw [hcode, hN, planCode]
    exact if_congr Iff.rfl rfl (if_congr Iff.rfl rfl (if_congr (by omega) rfl rfl))
  refine ⟨?_, planPacket_length hframe (hframe ▸ hpos) hC hi⟩
  rw [packetBytes_redrawPacket _ _ hi, htail, hlen, hcode, List.append_assoc]
  rfl

end Sys2Proof.Machine
end

section
/-!
The `Emit` of a packet as a step (spec/41_protocol.md R140 to R143, R149 to R152): a control command's packet, a
REDRAW's packet, and the runs of a whole REDRAW, answered ok throughout or up to a first failure.
-/

namespace Sys2Proof.Machine

/-! ## One `Emit` -/

/-- A step of the engine in an `Emit` is that packet's `Emit` (R151). -/
theorem step_of_emitting {s : State} {ts : List Turn} {p : Packet} {job : Job} (hmoves : EngineMoves s ts)
    (he : s.engine = .emitting p job) : step s = exec p.toInstr { s with turns := ts } :=
  (step_of_engineMoves hmoves).trans (engineTurn_emitting he)

/-- Settles O10: the engine's turn in an `Emit` is the packet's row. -/
theorem stepRunsPacketInEmit : Obligations.StepRunsPacketInEmit := fun _ _ _ _ => step_of_emitting

/-- The state `s` after `es` more events, with the answers `as` still to come. -/
def State.sent (s : State) (es : List EmitEvent) (as : List Answer) : State :=
  { s with answers := as, emits := s.emits ++ es }

theorem State.sent_nil (s : State) : s.sent [] s.answers = s := by
  rw [State.sent, List.append_nil]

theorem State.sent_sent (s : State) (es es' : List EmitEvent) (as as' : List Answer) :
    (s.sent es as).sent es' as' = s.sent (es ++ es') as' := by
  rw [State.sent, State.sent, State.sent, List.append_assoc]

/-- The answered `Emit` uses one answer, records its event, and lets the engine go on (R151). -/
theorem emit_sent {p : Packet} {job : Job} {s : State} {a : Answer} {as : List Answer}
    (he : s.engine = .emitting p job) (ha : s.answers = a :: as) :
    emit p s = afterEmit a job (s.sent [⟨packetBytes s.cfg p, some a⟩] as) := emit_answered he ha

/-! ## Control commands (R140 to R143) -/

/-- The answer to a control packet ends the command (R140). -/
theorem emit_control {p : Packet} {s : State} {a : Answer} {as : List Answer} {st : Word} (ha : s.answers = a :: as)
    (hst : st = if a = .ok then 0 else 3) :
    emit p { s with engine := .emitting p .control } =
      { s.sent [⟨packetBytes s.cfg p, some a⟩] as with
        engine := .idle, status := st, response := some ⟨st, s.cursorX⟩ } := by
  refine (emit_sent (s := { s with engine := .emitting p .control }) rfl ha).trans ?_
  rw [hst]
  cases a <;> rfl

/-- Settles O31, by the `Emit` of a control packet. -/
theorem setOrientationSendsPacket : Obligations.SetOrientationSendsPacket := fun _ _ =>
  ⟨rfl, fun _ _ _ ha hst => congrArg Host.Outcome.next (emit_control ha hst)⟩

/-- Settles O32, by the `Emit` of a control packet. -/
theorem setTimeSendsPacket : Obligations.SetTimeSendsPacket := fun _ _ _ _ =>
  ⟨rfl, fun _ _ _ ha hst => congrArg Host.Outcome.next (emit_control ha hst)⟩

/-- Settles O33, by the `Emit` of a control packet. -/
theorem heartbeatSendsPacket : Obligations.HeartbeatSendsPacket := fun _ _ _ _ =>
  ⟨rfl, fun _ _ _ ha hst => congrArg Host.Outcome.next (emit_control ha hst)⟩

/-! ## One packet of a REDRAW (R149, R152) -/

theorem afterEmit_redraw_next {s : State} {b : Fb} {i : Nat} (h : i + 1 < planCount s.cfg b) (sent : Nat)
    (frame : List Byte) : afterEmit .ok (.redraw b i sent frame) s =
      startRedrawPacket b (i + 1) (sent + planLen s.cfg b i) frame s := if_pos h

theorem afterEmit_redraw_last {s : State} {b : Fb} {i : Nat} (h : planCount s.cfg b ≤ i + 1) (sent : Nat)
    (frame : List Byte) : afterEmit .ok (.redraw b i sent frame) s = finish .ok 0 s := if_neg h.not_gt

/-- Settles O42: the row is the packet's `Emit`, and after the answer come the next packet, the end, or the failure. -/
theorem redrawPacketAnswered : Obligations.RedrawPacketAnswered := by
  intro i p b rdI rdSent frame s a as seq tail data hrow he ha
  have hexec : exec i s =
      .next (afterEmit a (.redraw b rdI rdSent frame) (s.sent [⟨packetBytes s.cfg p, some a⟩] as)) := by
    rw [← emit_sent he ha]
    rcases hrow with ⟨rfl, rfl⟩ | ⟨rfl, rfl⟩ | ⟨rfl, rfl⟩ | ⟨rfl, rfl⟩ <;> rfl
  refine ⟨?_, ?_, ?_⟩ <;> rintro rfl hi <;> refine hexec.trans (congrArg Host.Outcome.next ?_)
  · exact afterEmit_redraw_next (s := s.sent _ as) hi _ _
  · refine (afterEmit_redraw_last (s := s.sent _ as) hi _ _).trans ?_
    rw [finish, statusWord_ok]
    rfl
  · rw [← statusWord_transportFailure (by omega : rdI ≤ 255)]
    rfl

/-! ## The events of a REDRAW -/

/-- The `Emit` event of packet `i` of the plan, with its answer. -/
def planEvent (cfg : Config) (b : Fb) (frame : List Byte) (i : Nat) (a : Answer) : EmitEvent :=
  ⟨packetBytes cfg (redrawPacket cfg b frame i (cfg.chunk * i)), some a⟩

/-- The events of the plan's packets from packet 0 on, one for each answer. -/
def planEvents (cfg : Config) (b : Fb) (frame : List Byte) (as : List Answer) : List EmitEvent :=
  as.mapIdx (planEvent cfg b frame)

section Events

variable {cfg : Config} {b : Fb} {frame : List Byte} {as : List Answer} {e : EmitEvent} {i n : Nat}

theorem planEvents_concat (a : Answer) :
    planEvents cfg b frame (as ++ [a]) = planEvents cfg b frame as ++ [planEvent cfg b frame as.length a] :=
  List.mapIdx_concat

theorem planEvents_length : (planEvents cfg b frame as).length = as.length := List.length_mapIdx

theorem planEvents_getElem? : (planEvents cfg b frame as)[i]? = as[i]?.map (planEvent cfg b frame i) :=
  List.getElem?_mapIdx

theorem planEvents_bytes (h : (planEvents cfg b frame as)[i]? = some e) :
    e.bytes = packetBytes cfg (redrawPacket cfg b frame i (cfg.chunk * i)) := by
  rw [planEvents_getElem?] at h
  obtain ⟨a, -, rfl⟩ := Option.map_eq_some_iff.mp h
  rfl

theorem planEvents_answers : (planEvents cfg b frame as).map EmitEvent.answer = as.map some := by
  refine List.ext_getElem? fun i => ?_
  rw [List.getElem?_map, planEvents_getElem?, Option.map_map, List.getElem?_map]
  rfl

theorem exists_of_mem_planEvents (h : e ∈ planEvents cfg b frame as) :
    ∃ i a, i < as.length ∧ a ∈ as ∧ e = planEvent cfg b frame i a := by
  obtain ⟨i, hi, rfl⟩ := List.mem_mapIdx.mp h
  exact ⟨i, as[i], hi, List.getElem_mem hi, rfl⟩

/-- The payload of a packet's event is the packet's slice of the frame (R148, R150). -/
theorem payloadOf_planEvent (hframe : frame.length = frameSize cfg b) (hF : 0 < frameSize cfg b)
    (hC : 0 < cfg.chunk) (hi : i < planCount cfg b) (a : Answer) :
    payloadOf (planEvent cfg b frame i a) (planLen cfg b i) =
      (frame.drop (cfg.chunk * i)).take (planLen cfg b i) := by
  rw [payloadOf, planEvent, packetBytes_redrawPacket _ _ hi]
  exact planData_take (hframe ▸ planLen_end hF hC hi)

/-- The payloads of a list of events, each cut to its packet's length, in order (R150). -/
def payloads (cfg : Config) (b : Fb) (es : List EmitEvent) : List Byte :=
  (es.zipIdx.map fun e => payloadOf e.1 (planLen cfg b e.2)).flatten

theorem payloads_concat (es : List EmitEvent) (e : EmitEvent) :
    payloads cfg b (es ++ [e]) = payloads cfg b es ++ payloadOf e (planLen cfg b es.length) := by
  simp [payloads, List.zipIdx_append]

/-- Packet `n` adds its slice of the frame to the payloads. -/
theorem payloads_replicate_succ (hframe : frame.length = frameSize cfg b) (hF : 0 < frameSize cfg b)
    (hC : 0 < cfg.chunk) (hn : n < planCount cfg b) :
    payloads cfg b (planEvents cfg b frame (List.replicate (n + 1) .ok)) =
      payloads cfg b (planEvents cfg b frame (List.replicate n .ok)) ++
        (frame.drop (cfg.chunk * n)).take (planLen cfg b n) := by
  rw [List.replicate_succ', planEvents_concat, payloads_concat, planEvents_length, List.length_replicate,
    payloadOf_planEvent hframe hF hC hn]

/-- The payloads before packet `n` are the frame up to `offset_n` (R150). -/
theorem payloads_before (hframe : frame.length = frameSize cfg b) (hF : 0 < frameSize cfg b) (hC : 0 < cfg.chunk)
    (hn : n < planCount cfg b) :
    payloads cfg b (planEvents cfg b frame (List.replicate n .ok)) = frame.take (cfg.chunk * n) := by
  induction n with
  | zero => rfl
  | succ n ih =>
    rw [payloads_replicate_succ hframe hF hC (by omega), ih (by omega), planLen_of_succ_lt hn, ← List.take_add,
      Nat.mul_succ]

/-- The payloads of the whole plan are the frame (R150 law 7). -/
theorem payloads_plan (hframe : frame.length = frameSize cfg b) (hF : 0 < frameSize cfg b) (hC : 0 < cfg.chunk) :
    payloads cfg b (planEvents cfg b frame (List.replicate (planCount cfg b) .ok)) = frame := by
  obtain ⟨n, hn⟩ := exists_lastPacket hF hC
  rw [← hn, payloads_replicate_succ hframe hF hC (by omega), payloads_before hframe hF hC (by omega),
    ← List.take_add, planLen_last hF hC hn, ← hframe, List.take_length]

end Events

/-! ## The run of a REDRAW -/

/-- A REDRAW that `s` started, in the `Emit` of packet `i` of its plan after `i` answers ok, with the answers `as` still
to come. -/
def State.redrawAt (s : State) (b : Fb) (frame : List Byte) (i : Nat) (as : List Answer) : State :=
  startRedrawPacket b i (s.cfg.chunk * i) frame (s.sent (planEvents s.cfg b frame (List.replicate i .ok)) as)

section Runs

variable {s : State} {b : Fb} {frame : List Byte} {i k : Nat} {a : Answer} {as : List Answer}

/-- REDRAW goes to packet 0 where its framebuffer is written and the configuration exists (R149, R7). -/
theorem exec_redraw_starts (hcfg : configValid s.cfg = true) (hframe : frameBytes s b = some frame) :
    exec (.redraw b) s = .next (s.redrawAt b frame 0 s.answers) := by
  obtain ⟨-, hF, hF'⟩ := configValid_sizes hcfg b
  refine (execRedraw_of_frameBytes hF hF' hframe).trans (congrArg Host.Outcome.next ?_)
  exact congrArg (startRedrawPacket b 0 0 frame) s.sent_nil.symm

/-- What follows an answer does not look at the engine's state. -/
theorem afterEmit_startEmit_sent (a : Answer) (job job' : Job) (p : Packet) (s : State) (es : List EmitEvent)
    (as : List Answer) : afterEmit a job ((startEmit p job' s).sent es as) = afterEmit a job (s.sent es as) := by
  cases a <;> cases job <;> rfl

/-- A step in the `Emit` of packet `i` uses the next answer and records the event (R149, R151). -/
theorem step_redrawAt (hturns : s.turns = []) (hresponse : s.response = none) :
    step (s.redrawAt b frame i (a :: as)) = .next (afterEmit a (.redraw b i (s.cfg.chunk * i) frame)
      (s.sent (planEvents s.cfg b frame (List.replicate i .ok ++ [a])) as)) := by
  have hmoves : EngineMoves (s.redrawAt b frame i (a :: as)) s.turns := .inr ⟨hturns, hturns, hresponse⟩
  have hstep : step (s.redrawAt b frame i (a :: as)) =
      .next (emit (redrawPacket s.cfg b frame i (s.cfg.chunk * i)) (s.redrawAt b frame i (a :: as))) :=
    (step_of_emitting hmoves rfl).trans (exec_packet _ _)
  rw [hstep, emit_sent rfl rfl, planEvents_concat, List.length_replicate, ← State.sent_sent s _ _ (a :: as)]
  exact congrArg Host.Outcome.next (afterEmit_startEmit_sent a _ _ _ _ _ as)

/-- Answers ok take a REDRAW from packet to packet (R149). -/
theorem run_redrawAt (hturns : s.turns = []) (hresponse : s.response = none) (n : Nat)
    (h : i + k < planCount s.cfg b) :
    run (k + n) (s.redrawAt b frame i (List.replicate k .ok ++ as)) = run n (s.redrawAt b frame (i + k) as) := by
  induction k generalizing i with
  | zero => rw [Nat.zero_add]; rfl
  | succ k ih =>
    have hstep : step (s.redrawAt b frame i (List.replicate (k + 1) .ok ++ as)) =
        .next (s.redrawAt b frame (i + 1) (List.replicate k .ok ++ as)) := by
      have hi : i + 1 < planCount s.cfg b := by omega
      rw [List.replicate_succ, List.cons_append, step_redrawAt hturns hresponse, ← List.replicate_succ',
        afterEmit_redraw_next (s := s.sent _ _) hi, planLen_of_succ_lt (cfg := (s.sent _ _).cfg) hi]
      rfl
    rw [Nat.succ_add, run_succ hstep, ih (by omega), Nat.add_right_comm, Nat.add_assoc]

/-- A REDRAW of which packets 0 to `k - 1` are answered ok and packet `k` is answered `a` runs to what follows `a`,
with just these packets emitted (R149, R152). -/
theorem run_redraw (hturns : s.turns = []) (hresponse : s.response = none) (h : k < planCount s.cfg b)
    (ha : s.answers = List.replicate k .ok ++ a :: as) :
    run (k + 1) (s.redrawAt b frame 0 s.answers) = .next (afterEmit a (.redraw b k (s.cfg.chunk * k) frame)
      (s.sent (planEvents s.cfg b frame (List.replicate k .ok ++ [a])) as)) := by
  rw [ha, run_redrawAt hturns hresponse 1 (by omega), Nat.zero_add]
  exact run_succ (step_redrawAt hturns hresponse)

/-- A command that ends after its packets returns its code and leaves CURSOR_X and the framebuffers (R170, R149). -/
theorem finish_sent_returns (code : Code) (idx : Nat) (s : State) (es : List EmitEvent) (as : List Answer) :
    Returned s (finish code idx (s.sent es as)) (statusWord code idx) s.cursorX ∧
      SameFramebuffers s (finish code idx (s.sent es as)) :=
  ⟨⟨rfl, rfl, rfl, rfl, rfl, rfl, rfl, rfl, rfl, rfl⟩, fun b => by cases b <;> rfl⟩

end Runs

/-- Settles O45: the run to the failure on packet `k`, after which the command returns. -/
theorem redrawStopsAtFirstFailure : Obligations.RedrawStopsAtFirstFailure := by
  intro b s k rest frame hcfg hturns hresponse hframe hk ha
  obtain ⟨-, hF, hF'⟩ := configValid_sizes hcfg b
  have hN := planCount_le hF hF'
  obtain ⟨hreturned, hsame⟩ := finish_sent_returns .transportFailure k s
    (planEvents s.cfg b frame (List.replicate k .ok ++ [.fail])) rest
  rw [statusWord_transportFailure (by omega)] at hreturned
  refine ⟨_, _, _, exec_redraw_starts hcfg hframe, run_redraw hturns hresponse hk ha, rfl, ?_,
    fun _ _ => planEvents_bytes, hreturned, hsame, rfl⟩
  rw [planEvents_answers, List.map_append, List.map_replicate]
  rfl

/-- Settles O44: the run through the last packet, after which the command returns; its payloads are the frame. -/
theorem redrawDeliversFrame : Obligations.RedrawDeliversFrame := by
  intro b s rest frame hcfg hturns hresponse hframe ha
  obtain ⟨hC, hF, -⟩ := configValid_sizes hcfg b
  have hlength := frameBytes_length hframe
  obtain ⟨n, hn⟩ := exists_lastPacket hF hC
  have hrun : run (planCount s.cfg b) (s.redrawAt b frame 0 s.answers) = .next (finish .ok 0
      (s.sent (planEvents s.cfg b frame (List.replicate (planCount s.cfg b) .ok)) rest)) := by
    rw [← hn, List.replicate_succ', List.append_assoc] at ha
    rw [← hn, run_redraw hturns hresponse (by omega) ha, ← List.replicate_succ']
    exact congrArg Host.Outcome.next (afterEmit_redraw_last (s := s.sent _ rest) hn.ge _ _)
  obtain ⟨hreturned, hsame⟩ := finish_sent_returns .ok 0 s
    (planEvents s.cfg b frame (List.replicate (planCount s.cfg b) .ok)) rest
  rw [statusWord_ok] at hreturned
  refine ⟨_, _, _, exec_redraw_starts hcfg hframe, hrun, rfl, planEvents_length.trans List.length_replicate,
    fun e he => ?_, fun _ _ => planEvents_bytes, payloads_plan hlength hF hC, hreturned, hsame, rfl⟩
  obtain ⟨i, a, hi, ha, rfl⟩ := exists_of_mem_planEvents he
  obtain rfl : a = .ok := List.eq_of_mem_replicate ha
  exact ⟨rfl, planPacket_length hlength hF hC (by simpa using hi)⟩

end Sys2Proof.Machine
end

section
/-!
Exceptions (spec/60_exceptions.md R170 to R185): why a whole command fails decoding and what the rejection leaves, the
refusals of REDRAW and ROTATE_90CW, the one fault of the model, and the turns that reach no error at all.
-/

namespace Sys2Proof

/-! ## A whole command has its operand words (R60, R64) -/

section Operands

variable {op : Opcode} {w0 : Word} {ws : List Word}

theorem operands0_of_length {i : Instr} (h : ws.length = 0) : ∃ j, operands0 op i ws = .ok j := by
  obtain rfl := List.length_eq_zero_iff.mp h
  exact ⟨_, rfl⟩

theorem operands1_of_length {f : Word → Instr} (h : ws.length = 1) : ∃ j, operands1 op f ws = .ok j := by
  obtain ⟨_, rfl⟩ := List.length_eq_one_iff.mp h
  exact ⟨_, rfl⟩

theorem operands2_of_length {f : Word → Word → Instr} (h : ws.length = 2) : ∃ j, operands2 op f ws = .ok j := by
  obtain ⟨_, _, rfl⟩ := List.length_eq_two.mp h
  exact ⟨_, rfl⟩

theorem operands3_of_length {f : Word → Word → Word → Instr} (h : ws.length = 3) :
    ∃ j, operands3 op f ws = .ok j := by
  obtain ⟨_, _, _, rfl⟩ := List.length_eq_three.mp h
  exact ⟨_, rfl⟩

theorem operands4_of_length {f : Word → Word → Word → Word → Instr} (h : ws.length = 4) :
    ∃ j, operands4 op f ws = .ok j :=
  match ws, h with
  | [_, _, _, _], _ => ⟨_, rfl⟩

theorem operands6_of_length {f : Word → Word → Word → Word → Word → Word → Instr} (h : ws.length = 6) :
    ∃ j, operands6 op f ws = .ok j :=
  match ws, h with
  | [_, _, _, _, _, _], _ => ⟨_, rfl⟩

theorem operandsText_of_length {n : Nat} {f : Word → Word → Word → List Byte → Instr}
    (h : ws.length = 3 + charWords n) : ∃ j, operandsText op n f ws = .ok j := by
  match ws, h with
  | [], h | [_], h | [_, _], h => simp only [List.length_cons, List.length_nil] at h; omega
  | _ :: _ :: _ :: chars, h =>
    have hchars : chars.length = charWords n := by simp only [List.length_cons] at h; omega
    exact ⟨_, if_pos hchars⟩

/-- A command with as many words as its header word says has no operand word too few or too many. -/
theorem decodeOperands_of_length (hop : opField w0 = op.code) (hlen : (w0 :: ws).length = commandLength w0) :
    ∃ i, decodeOperands op w0 ws = .ok i := by
  rw [commandLength, hop, Opcode.ofCode_code, List.length_cons] at hlen
  cases op
  case clear | rotate90cw | setOrientation | redraw => exact operands0_of_length (Nat.succ.inj hlen)
  case setTime | heartbeat => exact operands1_of_length (Nat.succ.inj hlen)
  case putPixel => exact operands2_of_length (Nat.succ.inj hlen)
  case drawChar => exact operands3_of_length (Nat.succ.inj hlen)
  case drawText =>
    have hchars : ws.length = 3 + charWords (aLow w0).toNat := by simp only at hlen; omega
    rw [decodeOperands]
    exact operandsText_of_length hchars
  case fillRect => exact operands4_of_length (Nat.succ.inj hlen)
  case drawBar => exact operands6_of_length (Nat.succ.inj hlen)

end Operands

theorem commandLength_pos (w0 : Word) : 0 < commandLength w0 := by
  unfold commandLength
  split <;> omega

/-- What is split off a stream is a header word and as many words as it says. -/
theorem splitCommand_eq_some {stream cmd rest : List Word} (h : splitCommand stream = some (cmd, rest)) :
    ∃ w0 ws, cmd = w0 :: ws ∧ (w0 :: ws).length = commandLength w0 := by
  cases stream with
  | nil => cases h
  | cons w0 ws =>
    rw [splitCommand] at h
    split_ifs at h with hle
    cases h
    obtain ⟨n, hn⟩ := Nat.exists_eq_succ_of_ne_zero (commandLength_pos w0).ne'
    rw [hn] at hle ⊢
    refine ⟨w0, ws.take n, rfl, ?_⟩
    rw [hn, List.length_cons, List.length_take_of_le (Nat.le_of_succ_le_succ hle)]

/-- A whole command fails decoding for its OP value or for a fixed bit, and for nothing else (R67, R68). -/
theorem decodeCommand_error_of_whole {stream cmd rest : List Word} {e : DecodeError}
    (hsplit : splitCommand stream = some (cmd, rest)) (he : decodeCommand cmd = .error e) :
    e = .reservedOpcode ∨ ∃ op, e = .fixedField op := by
  obtain ⟨w0, ws, rfl, hlen⟩ := splitCommand_eq_some hsplit
  rcases decodeCommand_cases w0 ws with ⟨-, h⟩ | ⟨op, -, -, h⟩ | ⟨op, hop, -, h⟩ <;> rw [h] at he
  · cases he
    exact .inl rfl
  · cases he
    exact .inr ⟨op, rfl⟩
  · obtain ⟨i, hi⟩ := decodeOperands_of_length hop hlen
    rw [hi] at he
    cases he

end Sys2Proof

namespace Sys2Proof.Machine

/-! ## A rejected command (R171) -/

/-- Settles O11: the engine takes the command's words and rejects it, which is `finish` with ILLEGAL_COMMAND. -/
theorem illegalCommandOnlyReports : Obligations.IllegalCommandOnlyReports := by
  intro s ts cmd rest e hmoves hidle hresponse hsplit hdecode
  have hstep : step s = .next (rejectCommand { s with words := cmd, port := rest, turns := ts }) :=
    calc step s = takeCommand { s with turns := ts } := step_of_idle hmoves hidle
      _ = runCommand cmd { s with words := cmd, port := rest, turns := ts } := takeCommand_whole hresponse hsplit
      _ = .next (rejectCommand { s with words := cmd, port := rest, turns := ts }) := runCommand_error hdecode _
  obtain ⟨hreturned, hemits⟩ :=
    finish_returns .illegalCommand 0 { s with words := cmd, port := rest, turns := ts }
  rw [statusWord_illegalCommand] at hreturned
  exact ⟨decodeCommand_error_of_whole hsplit hdecode, _, hstep, fun b => by cases b <;> rfl,
    ⟨hemits.emits, hemits.answers⟩, hreturned⟩

/-! ## The model fault (R185) -/

theorem frameBytes_eq_none_iff {s : State} {b : Fb} (hwf : (s.fb b).wf) :
    frameBytes s b = none ↔ ¬ AllWritten s b := by
  rw [← frameBytes_isSome hwf, Option.not_isSome_iff_eq_none]

/-- A REDRAW of a frame of a legal size faults where the frame has an unwritten cell. -/
theorem execRedraw_of_unwritten {s : State} {b : Fb} (hF : 0 < frameSize s.cfg b)
    (hF' : frameSize s.cfg b ≤ 255 * s.cfg.chunk) (hframe : frameBytes s b = none) :
    execRedraw b s = .fault .unwrittenPixel := by
  rw [execRedraw, if_neg (by omega), hframe]

/-- Settles O35: an unwritten cell leaves REDRAW without the frame's bytes. -/
theorem redrawOfUnwrittenFaults : Obligations.RedrawOfUnwrittenFaults := fun _ _ hF hF' hwf hunwritten =>
  execRedraw_of_unwritten hF hF' ((frameBytes_eq_none_iff hwf).mpr hunwritten)

/-- Every instruction goes on, but for a REDRAW of a framebuffer without its frame bytes. -/
theorem exec_next_or_faults (i : Instr) (s : State) :
    (∃ t, exec i s = .next t) ∨
      ∃ b, i = .redraw b ∧ frameBytes s b = none ∧ exec i s = .fault .unwrittenPixel := by
  cases i
  case redraw b =>
    rcases execRedraw_cases b s with ⟨-, h⟩ | ⟨-, -, hframe, h⟩ | ⟨_, -, -, -, h⟩
    · exact .inl ⟨_, h⟩
    · exact .inr ⟨b, rfl, hframe, h⟩
    · exact .inl ⟨_, h⟩
  case rotate90cw src dst =>
    rcases execRotate90cw_cases src dst s with ⟨-, h⟩ | ⟨-, h⟩ <;> exact .inl ⟨_, h⟩
  all_goals exact .inl ⟨_, rfl⟩

/-- Settles O56, by the two ways an instruction goes. -/
theorem onlyRedrawFaults : Obligations.OnlyRedrawFaults := by
  intro i s hwf
  rcases exec_next_or_faults i s with ⟨t, h⟩ | ⟨b, rfl, hframe, h⟩ <;> rw [h]
  · exact ⟨fun r hr => (by cases hr), fun f hf => (by cases hf)⟩
  · refine ⟨fun r hr => (by cases hr), fun f hf => ?_⟩
    cases hf
    exact ⟨rfl, b, rfl, (frameBytes_eq_none_iff (hwf b)).mp hframe⟩

/-! ## The host's and the sink's turns (R151, R181) -/

theorem step_of_listed {s : State} {t : Turn} {ts : List Turn} (h : s.turns = t :: ts) :
    step s = takeTurn t { s with turns := ts } := by
  rw [step, h]

/-- Settles O15, by the listed turn; a take finds no response. -/
theorem hostOffersAndSinkAnswers : Obligations.HostOffersAndSinkAnswers := fun _ _ =>
  ⟨fun _ h => step_of_listed h, fun _ h => step_of_listed h,
    fun h hnone => (step_of_listed h).trans (congrArg Host.Outcome.next (hostTake_none hnone))⟩

/-! ## A refused command (R172, R174) -/

/-- A command that only reports, with the STATUS word it reports. -/
theorem finish_eq {code : Code} {idx : Nat} {st : Word} (h : statusWord code idx = st) (s : State) :
    finish code idx s = { s with status := st, response := some ⟨st, s.cursorX⟩, engine := .idle } := by
  rw [finish, h]

/-- Settles O27: the framebuffers fail the geometry test, and the command only reports. -/
theorem rotateRefusesGeometry : Obligations.RotateRefusesGeometry := by
  intro src dst s hgeometry
  have hrefused : ¬ rotatable s.cfg src dst = true := by
    rw [rotatable, decide_eq_true_eq]
    exact fun ⟨hne, hw, hh⟩ => hgeometry.elim hne fun h => h.elim (fun h => h hw) fun h => h hh
  exact (if_neg hrefused).trans (congrArg Host.Outcome.next (finish_eq statusWord_rotateGeometry s))

theorem execRedraw_of_frameSize {b : Fb} {s : State}
    (h : frameSize s.cfg b = 0 ∨ 255 * s.cfg.chunk < frameSize s.cfg b) :
    execRedraw b s = .next (finish .frameSizeInvalid 0 s) := if_pos h

/-- What `t` answers is what `s` answers, or a response with a CODE other than FRAME_SIZE_INVALID. -/
def NoFrameSizeError (s t : State) : Prop :=
  t.response = s.response ∨
    ∃ code idx cur, code ≠ Code.frameSizeInvalid ∧ t.response = some ⟨statusWord code idx, cur⟩

theorem noFrameSizeError_finish {code : Code} (hcode : code ≠ .frameSizeInvalid) (idx : Nat) (s s' : State) :
    NoFrameSizeError s (finish code idx s') := .inr ⟨code, idx, s'.cursorX, hcode, rfl⟩

theorem noFrameSizeError_afterEmit (a : Answer) (job : Job) (s : State) :
    NoFrameSizeError s (afterEmit a job s) := by
  rcases afterEmit_cases a job s with ⟨code, -, h, hcode⟩ | ⟨b, i, sent, frame, -, h⟩
  · rw [h]
    exact noFrameSizeError_finish (by rcases hcode with rfl | rfl <;> decide) _ _ _
  · rcases h with ⟨-, -, h⟩ | ⟨-, -, h⟩ | ⟨-, h⟩ <;> rw [h]
    · exact .inl rfl
    · exact noFrameSizeError_finish (by decide) _ _ _
    · exact noFrameSizeError_finish (by decide) _ _ _

theorem noFrameSizeError_emit (p : Packet) (s : State) : NoFrameSizeError s (emit p s) := by
  rcases emit_cases p s with h | ⟨job, a, as, -, -, h⟩ <;> rw [h]
  · exact .inl rfl
  · exact noFrameSizeError_afterEmit a job _

/-- Where every frame size is in range, no instruction reports FRAME_SIZE_INVALID (R172). -/
theorem noFrameSizeError_exec {i : Instr} {s t : State} (hcfg : configValid s.cfg = true)
    (h : exec i s = .next t) : NoFrameSizeError s t := by
  cases i
  case redraw b =>
    change execRedraw b s = .next t at h
    obtain ⟨-, hF, hF'⟩ := configValid_sizes hcfg b
    rcases execRedraw_cases b s with ⟨hsize, -⟩ | ⟨-, -, -, he⟩ | ⟨frame, -, -, -, he⟩
    · omega
    · rw [he] at h; cases h
    · rw [he] at h; cases h; exact .inl rfl
  case rotate90cw src dst =>
    change execRotate90cw src dst s = .next t at h
    rcases execRotate90cw_cases src dst s with ⟨-, he⟩ | ⟨-, he⟩ <;> rw [he] at h <;> cases h
    · exact noFrameSizeError_finish (by decide) _ _ _
    · exact noFrameSizeError_finish (by decide) _ _ _
  all_goals cases h
  case clear | putPixel | drawChar | drawText | fillRect | drawBar =>
    exact noFrameSizeError_finish (by decide) _ _ _
  case setOrientation | setTime | heartbeat => exact .inl rfl
  all_goals exact noFrameSizeError_emit _ s

/-- CODE 2 is FRAME_SIZE_INVALID's alone (R170). -/
theorem statusCode_statusWord_ne_two {code : Code} (h : code ≠ .frameSizeInvalid) (idx : Nat) :
    statusCode (statusWord code idx) ≠ 2#4 := by
  rw [statusCode_statusWord]
  cases code
  case frameSizeInvalid => exact absurd rfl h
  all_goals decide

/-- Settles O36: the frame-size check comes first; a valid configuration passes it, and no other CODE is 2. -/
theorem redrawRefusesFrameSize : Obligations.RedrawRefusesFrameSize := by
  refine ⟨fun b s hsize => ?_, fun b cfg hcfg => ?_, fun i s t r hcfg hnone hexec hr => ?_⟩
  · exact (execRedraw_of_frameSize hsize).trans
      (congrArg Host.Outcome.next (finish_eq statusWord_frameSizeInvalid s))
  · obtain ⟨-, hF, hF'⟩ := configValid_sizes hcfg b
    exact not_or.mpr ⟨hF.ne', hF'.not_gt⟩
  · rcases noFrameSizeError_exec hcfg hexec with hsame | ⟨code, idx, cur, hcode, hreturned⟩
    · cases hr.symm.trans (hsame.trans hnone)
    · cases hr.symm.trans hreturned
      exact statusCode_statusWord_ne_two hcode idx

end Sys2Proof.Machine
end

section
/-!
Hazards and reset (spec/70_reset_and_hazards.md R190 to R197): what the block does while it is busy, what reset leaves,
and how the records of a run grow.
-/

namespace Sys2Proof.Machine

/-! ## A busy block (R194, R196) -/

/-- The engine's turn in an `Emit`, as the state it leaves. -/
theorem engineTurn_emit {s : State} {p : Packet} {job : Job} (he : s.engine = .emitting p job) :
    engineTurn s = .next (emit p s) :=
  (engineTurn_emitting he).trans (exec_packet p s)

/-- While a command runs or its response waits, the engine's turn takes no word and starts no command. -/
theorem engineTurn_busy {s t : State} (hbusy : s.engine ≠ .idle ∨ s.response ≠ none) (h : engineTurn s = .next t) :
    t.port = s.port ∧ t.words = s.words ∧ (s.engine = .idle → t.engine = .idle) := by
  cases hen : s.engine with
  | idle =>
    have hresponse : s.response.isSome = true := Option.isSome_iff_ne_none.mpr (hbusy.resolve_left (absurd hen))
    rw [engineTurn_idle hen, takeCommand_responding hresponse] at h
    cases h
    exact ⟨rfl, rfl, fun _ => hen⟩
  | emitting p job =>
    rw [engineTurn_emit hen] at h
    cases h
    obtain ⟨-, -, -, hwords, hport, -⟩ := emit_keeps p s
    exact ⟨hport, hwords, fun hidle => by cases hidle⟩

/-- The host's take frees the words of the current command with its response, and starts nothing. -/
theorem hostTake_busy (s : State) :
    (hostTake s).port = s.port ∧
      ((hostTake s).words = s.words ∨
        (s.response ≠ none ∧ (hostTake s).response = none ∧ (hostTake s).words = [])) ∧
      (s.engine = .idle → (hostTake s).engine = .idle) := by
  cases hr : s.response with
  | none =>
    rw [hostTake_none hr]
    exact ⟨rfl, .inl rfl, id⟩
  | some r =>
    rw [hostTake_some hr]
    exact ⟨rfl, .inr ⟨Option.some_ne_none r, rfl, rfl⟩, id⟩

/-- Settles O13, by the agent whose turn the step is: only an offer adds to the port, and only a take drops words. -/
theorem noCommandBeforeResponseTaken : Obligations.NoCommandBeforeResponseTaken := by
  intro s t hbusy hreset h
  rcases step_cases h with ⟨a, ts, hturns, rfl⟩ | ⟨a, ts, -, rfl⟩ | ⟨-, rfl⟩ | ⟨ts, -, he⟩
  · cases a with
    | offer v => exact ⟨.inr ⟨v, ts, hturns, rfl⟩, .inl rfl, id⟩
    | take => exact (hostTake_busy { s with turns := ts }).imp_left .inl
    | reset => exact absurd hturns (hreset ts)
  · exact ⟨.inl rfl, .inl rfl, id⟩
  · exact (hostTake_busy s).imp_left .inl
  · obtain ⟨hport, hwords, hidle⟩ := engineTurn_busy (s := { s with turns := ts }) hbusy he
    exact ⟨.inl hport, .inl hwords, hidle⟩

/-- An engine's turn in an `Emit` without an answer uses up the turn alone (R196). -/
theorem step_of_unanswered {s : State} {p : Packet} {job : Job} {ts : List Turn} (he : s.engine = .emitting p job)
    (ha : s.answers = []) (hmoves : EngineMoves s ts) : step s = .next { s with turns := ts } :=
  calc step s = engineTurn { s with turns := ts } := step_of_engineMoves hmoves
    _ = .next (emit p { s with turns := ts }) := engineTurn_emit he
    _ = .next { s with turns := ts } := congrArg _ (emit_waits ha)

/-- What stays as it is while an `Emit` waits: the engine, the packet stream, STATUS and the framebuffers (R196). -/
structure KeepsEmit (s t : State) : Prop where
  engine : t.engine = s.engine
  emits  : t.emits = s.emits
  status : t.status = s.status
  fb     : SameFramebuffers s t

theorem keepsEmit_outside (s : State) (port : List Word) (answers : List Answer) (turns : List Turn) :
    KeepsEmit s { s with port := port, answers := answers, turns := turns } :=
  ⟨rfl, rfl, rfl, fun b => by cases b <;> rfl⟩

theorem keepsEmit_hostTake (s : State) (ts : List Turn) : KeepsEmit s (hostTake { s with turns := ts }) := by
  obtain ⟨-, hfb, hstatus, -, hengine, -, -, -, hemits, -⟩ := hostTake_keeps { s with turns := ts }
  exact ⟨hengine, hemits, hstatus, fun b => (hfb b).trans (by cases b <;> rfl)⟩

/-- Without an answer, no turn but the host's reset moves the `Emit`. -/
theorem step_keepsEmit {s : State} {p : Packet} {job : Job} (he : s.engine = .emitting p job) (ha : s.answers = [])
    (hreset : ∀ ts, s.turns ≠ .host .reset :: ts) : ∃ t, step s = .next t ∧ KeepsEmit s t := by
  have hengine {ts : List Turn} (hmoves : EngineMoves s ts) : ∃ t, step s = .next t ∧ KeepsEmit s t :=
    ⟨_, step_of_unanswered he ha hmoves, keepsEmit_outside s s.port s.answers ts⟩
  cases hturns : s.turns with
  | nil =>
    cases hr : s.response with
    | none => exact hengine (.inr ⟨hturns, rfl, hr⟩)
    | some r =>
      exact ⟨_, step_hostTake (Option.isSome_of_eq_some hr) (.inr ⟨hturns, rfl⟩), keepsEmit_hostTake s []⟩
  | cons u ts =>
    cases u with
    | engine => exact hengine (.inl hturns)
    | sink a => exact ⟨_, step_of_listed hturns, keepsEmit_outside s s.port _ ts⟩
    | host a =>
      cases a with
      | offer v => exact ⟨_, step_of_listed hturns, keepsEmit_outside s _ s.answers ts⟩
      | take => exact ⟨_, step_of_listed hturns, keepsEmit_hostTake s ts⟩
      | reset => exact absurd hturns (hreset ts)

/-- Settles O43: an unanswered `Emit` moves nothing at the engine's turn, and no other agent's turn moves it. -/
theorem emitWaitsForAnswer : Obligations.EmitWaitsForAnswer := by
  intro s p job he ha
  refine ⟨fun ts => step_of_unanswered he ha, fun hreset => ?_⟩
  obtain ⟨t, hstep, hkeeps⟩ := step_keepsEmit he ha hreset
  exact ⟨t, hstep, hkeeps.engine.trans he, hkeeps.emits, hkeeps.status, hkeeps.fb⟩

/-! ## Reset (R190) -/

theorem cutEmit_idle {s : State} (h : s.engine = .idle) : cutEmit s = [] := by
  rw [cutEmit, h]

/-- Settles O49: the step is `hostReset`, which cuts off at most an `Emit` in progress. -/
theorem resetAtAnyTime : Obligations.ResetAtAnyTime := by
  intro s ts hturns
  refine ⟨_, step_of_listed hturns, fun b k => ?_, rfl, rfl, rfl, rfl, rfl, rfl, rfl,
    ⟨_, rfl⟩, fun hidle => ?_⟩
  · exact congrArg (Memory.read · k) (hostReset_fb { s with turns := ts } b)
  · exact (congrArg (s.emits ++ ·) (cutEmit_idle (s := { s with turns := ts }) hidle)).trans (List.append_nil _)

/-! ## The records (R197) -/

/-- A record has stayed, or has one more entry at its end. -/
def AddsAtMostOne {α : Type} (l l' : List α) : Prop := l' = l ∨ ∃ x, l' = l ++ [x]

/-- Each of the two records of a run has grown by at most one entry. -/
def RecordsGrow (s t : State) : Prop :=
  AddsAtMostOne s.emits t.emits ∧ AddsAtMostOne s.completed t.completed

theorem recordsGrow_of_eq {s t : State} (hemits : t.emits = s.emits) (hcompleted : t.completed = s.completed) :
    RecordsGrow s t :=
  ⟨.inl hemits, .inl hcompleted⟩

/-- An answered `Emit` is one event of the packet stream (R151). -/
theorem emit_recordsGrow (p : Packet) (s : State) : RecordsGrow s (emit p s) := by
  rcases emit_cases p s with h | ⟨job, a, as, -, -, h⟩ <;> rw [h]
  · exact recordsGrow_of_eq rfl rfl
  · obtain ⟨-, -, -, -, -, -, hcompleted, hemits, -⟩ := afterEmit_keeps a job
      { s with answers := as, emits := s.emits ++ [⟨packetBytes s.cfg p, some a⟩] }
    exact ⟨.inr ⟨_, hemits⟩, .inl hcompleted⟩

theorem exec_recordsGrow {i : Instr} {s t : State} (h : exec i s = .next t) : RecordsGrow s t := by
  cases exec_effect h with
  | drawn b op => exact recordsGrow_of_eq (State.paint_emits s b op) (State.paint_completed s b op)
  | failed => exact recordsGrow_of_eq rfl rfl
  | started => exact recordsGrow_of_eq rfl rfl
  | emitted p => exact emit_recordsGrow p s

theorem engineTurn_recordsGrow {s t : State} (h : engineTurn s = .next t) : RecordsGrow s t := by
  rcases engineTurn_cases s with ⟨p, _, -, he⟩ | ⟨-, -, he⟩ | ⟨-, -, -, he⟩ | ⟨_, _, _, -, -, -, -, he⟩ |
    ⟨cmd, rest, _, -, -, -, -, he⟩ <;> rw [he] at h
  · exact exec_recordsGrow h
  · cases h; exact recordsGrow_of_eq rfl rfl
  · cases h; exact recordsGrow_of_eq rfl rfl
  · cases h; exact recordsGrow_of_eq rfl rfl
  · exact exec_recordsGrow (s := { s with words := cmd, port := rest }) h

/-- The host's taking of a response completes its command (R69). -/
theorem hostTake_recordsGrow (s : State) : RecordsGrow s (hostTake s) := by
  cases hr : s.response with
  | none => rw [hostTake_none hr]; exact recordsGrow_of_eq rfl rfl
  | some r => rw [hostTake_some hr]; exact ⟨.inl rfl, .inr ⟨_, rfl⟩⟩

/-- A cut `Emit` is reset's one event (R190). -/
theorem hostReset_recordsGrow (s : State) : RecordsGrow s (hostReset s) := by
  refine ⟨?_, .inl rfl⟩
  rw [hostReset_emits]
  rcases cutEmit_cases s with ⟨-, hcut⟩ | ⟨p, job, -, hcut⟩ <;> rw [hcut]
  · exact .inl (List.append_nil _)
  · exact .inr ⟨_, rfl⟩

theorem hostTurn_recordsGrow (a : HostAction) (s : State) : RecordsGrow s (hostTurn a s) := by
  cases a with
  | offer v => exact recordsGrow_of_eq rfl rfl
  | take => exact hostTake_recordsGrow s
  | reset => exact hostReset_recordsGrow s

theorem step_recordsGrow {s t : State} (h : step s = .next t) : RecordsGrow s t := by
  rcases step_cases h with ⟨a, ts, -, rfl⟩ | ⟨a, ts, -, rfl⟩ | ⟨-, rfl⟩ | ⟨ts, -, he⟩
  · exact hostTurn_recordsGrow a { s with turns := ts }
  · exact recordsGrow_of_eq rfl rfl
  · exact hostTake_recordsGrow s
  · exact engineTurn_recordsGrow (s := { s with turns := ts }) he

/-! ## An ended run (R197) -/

theorem EngineMoves.turns_subset {s : State} {ts : List Turn} (h : EngineMoves s ts) : ts ⊆ s.turns := by
  rcases h with h | ⟨-, rfl, -⟩
  · exact h ▸ List.subset_cons_self _ ts
  · exact List.nil_subset _

/-- With no word taken or offered, and no response waiting, an idle engine's turn changes nothing. -/
theorem engineTurn_nothing_offered {s : State} (hidle : s.engine = .idle) (hresponse : s.response = none)
    (hwords : s.words = []) (hport : s.port = []) : engineTurn s = .next s := by
  have hempty : s.words ++ s.port = [] := by rw [hwords, hport]; rfl
  rw [engineTurn_idle hidle, takeCommand_waiting hresponse (by rw [hempty]; rfl), hempty]
  cases s
  cases hwords
  cases hport
  rfl

/-- A step of an ended run changes nothing but the answers to come, and lists no new turn. -/
theorem step_of_runEnded {s t : State} (hended : RunEnded s) (h : step s = .next t) :
    ∃ as ts, ts ⊆ s.turns ∧ t = { s with answers := as, turns := ts } := by
  obtain ⟨hidle, hresponse, hwords, hport, hquiet⟩ := hended
  rcases step_cases h with ⟨a, ts, hturns, rfl⟩ | ⟨a, ts, hturns, rfl⟩ | ⟨-, rfl⟩ | ⟨ts, hmoves, he⟩
  · have hquiet : isQuiet (.host a) = true := hquiet _ (hturns ▸ List.mem_cons_self)
    cases a with
    | offer v => cases hquiet
    | take => exact ⟨s.answers, ts, hturns ▸ List.subset_cons_self _ ts, hostTake_none hresponse⟩
    | reset => cases hquiet
  · exact ⟨_, ts, hturns ▸ List.subset_cons_self _ ts, rfl⟩
  · exact ⟨s.answers, s.turns, List.Subset.refl _, hostTake_none hresponse⟩
  · rw [engineTurn_nothing_offered (s := { s with turns := ts }) hidle hresponse hwords hport] at he
    cases he
    exact ⟨s.answers, ts, hmoves.turns_subset, rfl⟩

theorem RunEnded.setOutside {s : State} (h : RunEnded s) (as : List Answer) {ts : List Turn} (hts : ts ⊆ s.turns) :
    RunEnded { s with answers := as, turns := ts } := by
  obtain ⟨hidle, hresponse, hwords, hport, hquiet⟩ := h
  exact ⟨hidle, hresponse, hwords, hport, fun u hu => hquiet u (hts hu)⟩

/-- A reset marks the end of the records as the start of the new run's. -/
theorem hostReset_observation (s : State) :
    (hostReset s).observation.emits = [] ∧ (hostReset s).observation.completed = [] :=
  ⟨List.drop_length, List.drop_length⟩

/-- Settles O57: the records grow with an `Emit` or a take, an ended run has neither, and reset marks where they end. -/
theorem packetStreamOnlyGrows : Obligations.PacketStreamOnlyGrows := by
  intro s t h
  obtain ⟨hemits, hcompleted⟩ := step_recordsGrow h
  refine ⟨hemits, hcompleted, fun hended => ?_, fun ts hturns => ?_⟩
  · obtain ⟨as, ts, hts, rfl⟩ := step_of_runEnded hended h
    exact ⟨hended.setOutside as hts, rfl⟩
  · cases (step_of_listed hturns).symm.trans h
    exact hostReset_observation _

end Sys2Proof.Machine
end
